-- ==== Sys2Proof/Word.lean ====
section
/-! DEFINITION. The word types of the kj6msg/chip8 CORE (00_scope.md R9, R10): everything the spec treats as bits is an
unsigned bit vector, and nothing is signed. -/

namespace Sys2Proof

/-- An 8-bit value: a data register, a memory byte, DT, ST, an immediate NN (R10). -/
abbrev Byte := BitVec 8

/-- A 16-bit value: an instruction word, pc, I, a stack entry (R10, R70). -/
abbrev Word := BitVec 16

/-- A 12-bit address operand NNN (R71, R73). -/
abbrev Addr12 := BitVec 12

/-- `zext_16(v)`: `v` widened to 16 bits with zeros (R10). -/
abbrev zext16 {n : Nat} (b : BitVec n) : Word := b.setWidth 16

end Sys2Proof
end

