-- ==== Sys2Proof/Syntax.lean ====
section
/-! DEFINITION. The 34 instructions (00_scope.md R3, 30_encoding.md R75), one constructor per row of
spec/opcode_table.json, with the operands of R71. A field the execution ignores (Y of SHR and SHL, N of 5XYN and 9XYN) is
kept, so that a word is lost nowhere (log 19). -/

namespace Sys2Proof

/-- A data register index: every value names a register (R21). -/
abbrev Reg := Fin 16

/-- A 4-bit number N: the row count of DRAW, or the ignored low nibble of 5XYN and 9XYN (R73, R79). -/
abbrev Nibble := Fin 16

inductive Instr where
  | cls
  | ret
  | jump (nnn : Addr12)
  | call (nnn : Addr12)
  | seImm (x : Reg) (nn : Byte)
  | sneImm (x : Reg) (nn : Byte)
  | seReg (x y : Reg) (n : Nibble)
  | load (x : Reg) (nn : Byte)
  | add (x : Reg) (nn : Byte)
  | move (x y : Reg)
  | or (x y : Reg)
  | and (x y : Reg)
  | xor (x y : Reg)
  | addr (x y : Reg)
  | sub (x y : Reg)
  | shr (x y : Reg)
  | subn (x y : Reg)
  | shl (x y : Reg)
  | sneReg (x y : Reg) (n : Nibble)
  | loadi (nnn : Addr12)
  | jumpi (nnn : Addr12)
  | rand (x : Reg) (nn : Byte)
  | draw (x y : Reg) (n : Nibble)
  | skpr (x : Reg)
  | skup (x : Reg)
  | moved (x : Reg)
  | keyd (x : Reg)
  | loadd (x : Reg)
  | loads (x : Reg)
  | addi (x : Reg)
  | ldspr (x : Reg)
  | bcd (x : Reg)
  | stor (x : Reg)
  | read (x : Reg)
deriving DecidableEq, Repr

end Sys2Proof
end

