-- ==== Sys2Proof/WellFormed.lean ====
section
/-! DEFINITION. Which instructions a machine has a word for. The types of the operands hold every bound of R71 to R73
already (register indices, NN, NNN, N); what is left to check is the low nibble of the families 5 and 9, which must be 0
under STRICT_5_9 (30_encoding.md R79). -/

namespace Sys2Proof

/-- Under STRICT_5_9 the low nibble of 5XYN and 9XYN must be 0; otherwise any value will do (R79). -/
def lowNibbleOk (strict : Bool) (n : Nibble) : Bool := n == 0 || !strict

/-- The instruction is one of the machine whose STRICT_5_9 is `strict`. -/
def Instr.wellFormed (strict : Bool) : Instr → Bool
  | .seReg _ _ n => lowNibbleOk strict n
  | .sneReg _ _ n => lowNibbleOk strict n
  | .cls | .ret | .jump _ | .call _ | .seImm _ _ | .sneImm _ _ | .load _ _ | .add _ _ | .move _ _ | .or _ _ | .and _ _
  | .xor _ _ | .addr _ _ | .sub _ _ | .shr _ _ | .subn _ _ | .shl _ _ | .loadi _ | .jumpi _ | .rand _ _ | .draw _ _ _
  | .skpr _ | .skup _ | .moved _ | .keyd _ | .loadd _ | .loads _ | .addi _ | .ldspr _ | .bcd _ | .stor _ | .read _ => true

end Sys2Proof
end

