-- ==== Sys2Proof/Decode.lean ====
section
/-! DEFINITION. The decoder (30_encoding.md R70 to R80), total on every word and on any bytes, and after it the encoder. The
bit patterns of 29 of the 34 rows are the spec's from general knowledge (93_implementation_defined.md I1; log 11). -/

namespace Sys2Proof

/-! ### The fields of a word (R72) -/

/-- `kind = w[15:12]`. -/
def fieldKind (w : Word) : BitVec 4 := w.extractLsb' 12 4
/-- `X = w[11:8]`. -/
def fieldX (w : Word) : Reg := (w.extractLsb' 8 4).toFin
/-- `Y = w[7:4]`. -/
def fieldY (w : Word) : Reg := (w.extractLsb' 4 4).toFin
/-- `N = w[3:0]`. -/
def fieldN (w : Word) : Nibble := (w.extractLsb' 0 4).toFin
/-- `NN = w[7:0]`. -/
def fieldNN (w : Word) : Byte := w.extractLsb' 0 8
/-- `NNN = w[11:0]`. -/
def fieldNNN (w : Word) : Addr12 := w.extractLsb' 0 12

/-! ### Dispatch (R74, R75, R77) -/

/-- Family 0 matches whole words (R80). -/
def decodeFamily0 (w : Word) : Option Instr :=
  if w = 0x00E0#16 then some .cls else if w = 0x00EE#16 then some .ret else none

/-- Family 8 dispatches on N (R74). -/
def decodeFamily8 (w : Word) : Option Instr :=
  match fieldN w with
  | 0x0 => some (.move (fieldX w) (fieldY w))
  | 0x1 => some (.or (fieldX w) (fieldY w))
  | 0x2 => some (.and (fieldX w) (fieldY w))
  | 0x3 => some (.xor (fieldX w) (fieldY w))
  | 0x4 => some (.addr (fieldX w) (fieldY w))
  | 0x5 => some (.sub (fieldX w) (fieldY w))
  | 0x6 => some (.shr (fieldX w) (fieldY w))
  | 0x7 => some (.subn (fieldX w) (fieldY w))
  | 0xE => some (.shl (fieldX w) (fieldY w))
  | _ => none

/-- Family E dispatches on NN (R74). -/
def decodeFamilyE (w : Word) : Option Instr :=
  match fieldNN w with
  | 0x9E#8 => some (.skpr (fieldX w))
  | 0xA1#8 => some (.skup (fieldX w))
  | _ => none

/-- Family F dispatches on NN (R74). -/
def decodeFamilyF (w : Word) : Option Instr :=
  match fieldNN w with
  | 0x07#8 => some (.moved (fieldX w))
  | 0x0A#8 => some (.keyd (fieldX w))
  | 0x15#8 => some (.loadd (fieldX w))
  | 0x18#8 => some (.loads (fieldX w))
  | 0x1E#8 => some (.addi (fieldX w))
  | 0x29#8 => some (.ldspr (fieldX w))
  | 0x33#8 => some (.bcd (fieldX w))
  | 0x55#8 => some (.stor (fieldX w))
  | 0x65#8 => some (.read (fieldX w))
  | _ => none

/-- `Decode(w)` of the machine whose STRICT_5_9 is `strict`: the instruction the word stands for, or none for an illegal
opcode (R74, R75, R77, R79). -/
def decodeWord (strict : Bool) (w : Word) : Option Instr :=
  match fieldKind w with
  | 0x0#4 => decodeFamily0 w
  | 0x1#4 => some (.jump (fieldNNN w))
  | 0x2#4 => some (.call (fieldNNN w))
  | 0x3#4 => some (.seImm (fieldX w) (fieldNN w))
  | 0x4#4 => some (.sneImm (fieldX w) (fieldNN w))
  | 0x5#4 => if lowNibbleOk strict (fieldN w) then some (.seReg (fieldX w) (fieldY w) (fieldN w)) else none
  | 0x6#4 => some (.load (fieldX w) (fieldNN w))
  | 0x7#4 => some (.add (fieldX w) (fieldNN w))
  | 0x8#4 => decodeFamily8 w
  | 0x9#4 => if lowNibbleOk strict (fieldN w) then some (.sneReg (fieldX w) (fieldY w) (fieldN w)) else none
  | 0xA#4 => some (.loadi (fieldNNN w))
  | 0xB#4 => some (.jumpi (fieldNNN w))
  | 0xC#4 => some (.rand (fieldX w) (fieldNN w))
  | 0xD#4 => some (.draw (fieldX w) (fieldY w) (fieldN w))
  | 0xE#4 => decodeFamilyE w
  | _ => decodeFamilyF w

/-! ### Bytes (R51, R70) -/

/-- The word of two bytes: the byte at the lower address is bits 15:8 (R51; log 12). -/
def wordOfBytes (hi lo : Byte) : Word := hi ++ lo

/-- The two bytes of a word, the one at the lower address first (R51). -/
def bytesOfWord (w : Word) : List Byte := [w.extractLsb' 8 8, w.extractLsb' 0 8]

/-- Why bytes are no instruction. -/
inductive Reject where
  /-- Fewer than the 2 bytes every instruction has (R70). -/
  | truncated
  /-- The word selects no row of R75 (R77): an illegal opcode. -/
  | illegalOpcode (w : Word)
deriving DecidableEq, Repr

/-- The instruction at the front of `bytes` and the bytes after it, or the named reason there is none. -/
def decode (strict : Bool) : List Byte → Except Reject (Instr × List Byte)
  | hi :: lo :: rest =>
    match decodeWord strict (wordOfBytes hi lo) with
    | some i => .ok (i, rest)
    | none => .error (.illegalOpcode (wordOfBytes hi lo))
  | _ => .error .truncated

/-- What the decoder reads from an instruction whose bits are `w`, numbered as spec/opcode_table.json numbers them; no
instruction has more than 16 bits (R70). The machine is that of the default parameters (STRICT_5_9 = false, R8). -/
def decodeTableWord (nbits w : Nat) : Option Instr :=
  if nbits ≤ 16 then
    match decode false (bytesOfWord (BitVec.ofNat 16 w)) with
    | .ok (i, _) => some i
    | .error _ => none
  else none

/-! ### The encoder (R75) -/

/-- The word of kind `k` with an address operand. -/
def encodeNNN (k : BitVec 4) (nnn : Addr12) : Word := k ++ nnn
/-- The word of kind `k` with a register and an immediate byte. -/
def encodeXNN (k : BitVec 4) (x : Reg) (nn : Byte) : Word := k ++ BitVec.ofFin (w := 4) x ++ nn
/-- The word of kind `k` with two registers and a low nibble. -/
def encodeXYN (k : BitVec 4) (x y : Reg) (n : Nibble) : Word :=
  k ++ BitVec.ofFin (w := 4) x ++ BitVec.ofFin (w := 4) y ++ BitVec.ofFin (w := 4) n

/-- The word of an instruction (R75). -/
def encode : Instr → Word
  | .cls => 0x00E0#16
  | .ret => 0x00EE#16
  | .jump nnn => encodeNNN 0x1#4 nnn
  | .call nnn => encodeNNN 0x2#4 nnn
  | .seImm x nn => encodeXNN 0x3#4 x nn
  | .sneImm x nn => encodeXNN 0x4#4 x nn
  | .seReg x y n => encodeXYN 0x5#4 x y n
  | .load x nn => encodeXNN 0x6#4 x nn
  | .add x nn => encodeXNN 0x7#4 x nn
  | .move x y => encodeXYN 0x8#4 x y 0x0
  | .or x y => encodeXYN 0x8#4 x y 0x1
  | .and x y => encodeXYN 0x8#4 x y 0x2
  | .xor x y => encodeXYN 0x8#4 x y 0x3
  | .addr x y => encodeXYN 0x8#4 x y 0x4
  | .sub x y => encodeXYN 0x8#4 x y 0x5
  | .shr x y => encodeXYN 0x8#4 x y 0x6
  | .subn x y => encodeXYN 0x8#4 x y 0x7
  | .shl x y => encodeXYN 0x8#4 x y 0xE
  | .sneReg x y n => encodeXYN 0x9#4 x y n
  | .loadi nnn => encodeNNN 0xA#4 nnn
  | .jumpi nnn => encodeNNN 0xB#4 nnn
  | .rand x nn => encodeXNN 0xC#4 x nn
  | .draw x y n => encodeXYN 0xD#4 x y n
  | .skpr x => encodeXNN 0xE#4 x 0x9E#8
  | .skup x => encodeXNN 0xE#4 x 0xA1#8
  | .moved x => encodeXNN 0xF#4 x 0x07#8
  | .keyd x => encodeXNN 0xF#4 x 0x0A#8
  | .loadd x => encodeXNN 0xF#4 x 0x15#8
  | .loads x => encodeXNN 0xF#4 x 0x18#8
  | .addi x => encodeXNN 0xF#4 x 0x1E#8
  | .ldspr x => encodeXNN 0xF#4 x 0x29#8
  | .bcd x => encodeXNN 0xF#4 x 0x33#8
  | .stor x => encodeXNN 0xF#4 x 0x55#8
  | .read x => encodeXNN 0xF#4 x 0x65#8

/-! ### The opcode map as R75 prints it -/

/-- One row of the opcode map: a word `w` selects it when `(w & mask) == value` (R75). -/
structure OpcodeRow where
  mnemonic : String
  mask : Word
  value : Word
deriving DecidableEq, Repr

/-- Whether a word selects the row (R75). -/
def OpcodeRow.selects (r : OpcodeRow) (w : Word) : Bool := w &&& r.mask == r.value

/-- The mask of the rows SE_REG and SNE_REG (R75, R79). -/
def mask59 (strict : Bool) : Word := if strict then 0xF00F#16 else 0xF000#16

/-- The row of the opcode map an instruction belongs to (R75), for the machine whose STRICT_5_9 is `strict`. -/
def Instr.row (strict : Bool) : Instr → OpcodeRow
  | .cls => ⟨"CLS", 0xFFFF#16, 0x00E0#16⟩
  | .ret => ⟨"RET", 0xFFFF#16, 0x00EE#16⟩
  | .jump _ => ⟨"JUMP", 0xF000#16, 0x1000#16⟩
  | .call _ => ⟨"CALL", 0xF000#16, 0x2000#16⟩
  | .seImm _ _ => ⟨"SE_IMM", 0xF000#16, 0x3000#16⟩
  | .sneImm _ _ => ⟨"SNE_IMM", 0xF000#16, 0x4000#16⟩
  | .seReg _ _ _ => ⟨"SE_REG", mask59 strict, 0x5000#16⟩
  | .load _ _ => ⟨"LOAD", 0xF000#16, 0x6000#16⟩
  | .add _ _ => ⟨"ADD", 0xF000#16, 0x7000#16⟩
  | .move _ _ => ⟨"MOVE", 0xF00F#16, 0x8000#16⟩
  | .or _ _ => ⟨"OR", 0xF00F#16, 0x8001#16⟩
  | .and _ _ => ⟨"AND", 0xF00F#16, 0x8002#16⟩
  | .xor _ _ => ⟨"XOR", 0xF00F#16, 0x8003#16⟩
  | .addr _ _ => ⟨"ADDR", 0xF00F#16, 0x8004#16⟩
  | .sub _ _ => ⟨"SUB", 0xF00F#16, 0x8005#16⟩
  | .shr _ _ => ⟨"SHR", 0xF00F#16, 0x8006#16⟩
  | .subn _ _ => ⟨"SUBN", 0xF00F#16, 0x8007#16⟩
  | .shl _ _ => ⟨"SHL", 0xF00F#16, 0x800E#16⟩
  | .sneReg _ _ _ => ⟨"SNE_REG", mask59 strict, 0x9000#16⟩
  | .loadi _ => ⟨"LOADI", 0xF000#16, 0xA000#16⟩
  | .jumpi _ => ⟨"JUMPI", 0xF000#16, 0xB000#16⟩
  | .rand _ _ => ⟨"RAND", 0xF000#16, 0xC000#16⟩
  | .draw _ _ _ => ⟨"DRAW", 0xF000#16, 0xD000#16⟩
  | .skpr _ => ⟨"SKPR", 0xF0FF#16, 0xE09E#16⟩
  | .skup _ => ⟨"SKUP", 0xF0FF#16, 0xE0A1#16⟩
  | .moved _ => ⟨"MOVED", 0xF0FF#16, 0xF007#16⟩
  | .keyd _ => ⟨"KEYD", 0xF0FF#16, 0xF00A#16⟩
  | .loadd _ => ⟨"LOADD", 0xF0FF#16, 0xF015#16⟩
  | .loads _ => ⟨"LOADS", 0xF0FF#16, 0xF018#16⟩
  | .addi _ => ⟨"ADDI", 0xF0FF#16, 0xF01E#16⟩
  | .ldspr _ => ⟨"LDSPR", 0xF0FF#16, 0xF029#16⟩
  | .bcd _ => ⟨"BCD", 0xF0FF#16, 0xF033#16⟩
  | .stor _ => ⟨"STOR", 0xF0FF#16, 0xF055#16⟩
  | .read _ => ⟨"READ", 0xF0FF#16, 0xF065#16⟩

/-- One instruction of every row of the opcode map, in the order of R75. -/
def rowSamples : List Instr :=
  [.cls, .ret, .jump 0, .call 0, .seImm 0 0, .sneImm 0 0, .seReg 0 0 0, .load 0 0, .add 0 0, .move 0 0, .or 0 0, .and 0 0,
    .xor 0 0, .addr 0 0, .sub 0 0, .shr 0 0, .subn 0 0, .shl 0 0, .sneReg 0 0 0, .loadi 0, .jumpi 0, .rand 0 0, .draw 0 0 0,
    .skpr 0, .skup 0, .moved 0, .keyd 0, .loadd 0, .loads 0, .addi 0, .ldspr 0, .bcd 0, .stor 0, .read 0]

/-- The opcode map (R75): its 34 rows. -/
def opcodeMap (strict : Bool) : List OpcodeRow := rowSamples.map (Instr.row strict)

end Sys2Proof
end

