-- ==== Sys2Proof/Config.lean ====
section
/-! DEFINITION. What an implementation fixes (00_scope.md R8), the inputs of a tick (60_exceptions.md R196), and the free
values of the model: constants without a body, about which nothing can be proved. -/

namespace Sys2Proof.Config

/-- VF_ORDER (42_arith_flags.md R130, 92_eei_decisions.md D10): which of the two writes of a flag-writing instruction
comes last. -/
inductive VfOrder where
  /-- The flag is written first and the result is computed from the registers after that write (the default). -/
  | flagFirst
  /-- Both are computed first, the result is written, then the flag. -/
  | flagLast
deriving DecidableEq, Repr, Inhabited

/-- KEYD_PICK (45_input_timer.md R163, 92_eei_decisions.md D13): which pressed key KEYD captures. -/
inductive KeydPick where
  /-- The lowest pressed key (the default). -/
  | lowest
  /-- A pressed key chosen by `freeKeyChoice`, of which nothing is known: it stands for every other choice function. -/
  | free
deriving DecidableEq, Repr, Inhabited

/-- The parameters the source leaves open (R8). They are fixed for a machine; State holds them, so that a statement about
every state is one about every choice of them (log 7). -/
structure Params where
  /-- FONT: the 80 bytes at 0x000-0x04F at reset (D7). -/
  font : Vector Byte 80
  /-- INIT_MEM: what memory outside the font and the loaded program holds at reset (D6). -/
  initMem : Byte
  /-- STRICT_5_9: whether 5XYN and 9XYN require N = 0 (D9, 30_encoding.md R79). -/
  strict59 : Bool
  vfOrder : VfOrder
  keydPick : KeydPick
deriving DecidableEq, Repr

/-- One `key_event(k, p)`: key `k` is now pressed (`true`) or released (60_exceptions.md R192). -/
structure KeyEvent where
  key : Fin 16
  pressed : Bool
deriving DecidableEq, Repr, Inhabited

/-- What the environment gives one tick (60_exceptions.md R196): the key events that arrived since the tick before it, in
order of arrival, and the two inputs sampled with the tick. -/
structure TickInput where
  events : List KeyEvent
  timerDue : Bool
  randByte : Byte
deriving DecidableEq, Repr, Inhabited

/-- The input of tick number `n` where State lists none: a free value (log 1; D15, D17, D22). -/
opaque freeTickInput : Nat → TickInput

/-- The key a `KeydPick.free` machine would choose, given the key-state table: a free value (log 8; D13). -/
opaque freeKeyChoice : Vector Bool 16 → Fin 16

end Sys2Proof.Config
end

