-- ==== Sys2Proof/Machine/Defaults.lean ====
section
/-! DEFINITION. The default parameters (00_scope.md R8), the default font (92_eei_decisions.md D7) and the reset values the
spec gives (10_state.md R40; logs 5, 6 and 7). -/

namespace Sys2Proof.Machine

open Sys2Proof.Config

/-- The standard CHIP-8 font, glyphs 0 to 7 (appendix to D7). -/
def standardFontLow : List Byte :=
  [0xF0, 0x90, 0x90, 0x90, 0xF0, 0x20, 0x60, 0x20, 0x20, 0x70, 0xF0, 0x10, 0xF0, 0x80, 0xF0, 0xF0, 0x10, 0xF0, 0x10, 0xF0,
    0x90, 0x90, 0xF0, 0x10, 0x10, 0xF0, 0x80, 0xF0, 0x10, 0xF0, 0xF0, 0x80, 0xF0, 0x90, 0xF0, 0xF0, 0x10, 0x20, 0x40, 0x40]

/-- The standard CHIP-8 font, glyphs 8 to F (appendix to D7). -/
def standardFontHigh : List Byte :=
  [0xF0, 0x90, 0xF0, 0x90, 0xF0, 0xF0, 0x90, 0xF0, 0x10, 0xF0, 0xF0, 0x90, 0xF0, 0x90, 0x90, 0xE0, 0x90, 0xE0, 0x90, 0xE0,
    0xF0, 0x80, 0x80, 0x80, 0xF0, 0xE0, 0x90, 0x90, 0x90, 0xE0, 0xF0, 0x80, 0xF0, 0x80, 0xF0, 0xF0, 0x80, 0xF0, 0x80, 0x80]

/-- The default FONT (D7): 16 glyphs of 5 bytes. -/
def standardFont : Vector Byte 80 := ⟨(standardFontLow ++ standardFontHigh).toArray, rfl⟩

/-- The default parameters (R8). -/
def defaultParams : Params where
  font := standardFont
  initMem := 0x00
  strict59 := false
  vfOrder := .flagFirst
  keydPick := .lowest

/-- What a byte of memory that nothing has written reads as: FONT at 0x000-0x04F, INIT_MEM elsewhere (R40, D6, D7). -/
def resetByte (p : Params) (a : Nat) : Byte := if h : a < 80 then p.font[a] else p.initMem

/-- pc at reset (R40). -/
def resetPc : Word := 0x200
/-- Every data register at reset (R40, D6). -/
def resetReg : Byte := 0x00
/-- I at reset (R40, D6). -/
def resetIndex : Word := 0x0000
/-- Every stack entry at reset (R40, D5, D6; unobservable, R28). -/
def resetStackEntry : Word := 0x0000
/-- DT and ST at reset (R40, D6). -/
def resetTimer : Byte := 0x00
/-- Every pixel at reset (R40, D6). -/
def resetPixel : Bool := false
/-- Every key at reset (R40, D6). -/
def resetKey : Bool := false

end Sys2Proof.Machine
end

