-- ==== Sys2Proof/Machine/State.lean ====
section
/-! DEFINITION. The state of the core (10_state.md R20), the reasons a tick can stop, and the state after reset (R40). -/

namespace Sys2Proof.Machine

open Sys2Proof.Config

/-- The fatal errors (60_exceptions.md R182), each with the info it records. A fatal error ends the session and exposes no
state (R184; log 3). All are safe: where the core halts, the model stops. -/
inductive Fault where
  /-- Code 2, raised by CALL with SP = 16; `a` is the address of the CALL (40_control_flow.md R102). Safe. -/
  | stackOverflow (a : Word)
  /-- Code 3, raised by RET with SP = 0; `a` is the address of the RET (40_control_flow.md R103). Safe. -/
  | stackUnderflow (a : Word)
  /-- Code 4, raised by the fetch, DRAW, BCD, STOR and READ; `addr` is the first out-of-range byte address
  (20_memory.md R53). Safe. -/
  | memOutOfRange (addr : Nat)
  /-- Code 5, raised by SKPR and SKUP with V[X] > 15; `k` is V[X] (45_input_timer.md R161, R162; log 16). Safe. -/
  | keyIndexOutOfRange (k : Byte)
deriving DecidableEq, Repr

/-- The reasons an instruction has no meaning. -/
inductive Refusal where
  /-- Raised by `exec` for an instruction whose arm has no meaning yet. Safe. -/
  | notModelled (mnemonic : String)
deriving DecidableEq, Repr

/-- The session status (R35). -/
inductive Halt where
  | running
  | halted (reason : Fault)
deriving DecidableEq, Repr

/-- The key-wait latch (R34). -/
inductive KeyWait where
  | idle
  | captured (k : Fin 16)
deriving DecidableEq, Repr

/-- The diagnostic record of an illegal opcode: the word and the address it was fetched from (60_exceptions.md R181). -/
structure Diag where
  opcode : Word
  addr : Word
deriving DecidableEq, Repr

/-- Memory: the bytes that differ from what an unlisted address reads as (`resetByte`), addresses strictly rising. -/
abbrev Memory := List Host.Cell

/-- The framebuffer: 32 rows of 64 pixels, `fb[y][x]` (R32). -/
abbrev Frame := Vector (Vector Bool 64) 32

/-- The state of the core (R20), the two port values a tick leaves or takes (60_exceptions.md R196), and the model's own
fields (logs 1 and 7). -/
structure State where
  /-- mem[0..4095] (20_memory.md R50). -/
  mem : Memory
  /-- V0 to VF (R21); VF is `v[15]` (R22). -/
  v : Vector Byte 16
  /-- The index register I (R24). -/
  i : Word
  /-- The program counter (R25). -/
  pc : Word
  /-- SP, the number of live stack entries, in 0..16 (R27). -/
  sp : Fin 17
  /-- The call stack (R27). -/
  stack : Vector Word 16
  /-- The delay timer (R29). -/
  dt : Byte
  /-- The sound timer (R30). -/
  st : Byte
  /-- The framebuffer (R32). -/
  fb : Frame
  /-- The key-state table: true is pressed (R33). -/
  key : Vector Bool 16
  /-- The key-wait latch (R34). -/
  kw : KeyWait
  /-- The session status (R35). -/
  halt : Halt
  /-- Port `rand_byte` as sampled with the current tick (60_exceptions.md R196). -/
  randByte : Byte
  /-- Port `diag`: the report of the last tick (60_exceptions.md R195, R196; log 4). -/
  diag : Option Diag
  /-- The model's own: the inputs of the ticks to come, the next tick's first (log 1). -/
  inputs : List TickInput
  /-- The model's own: how many ticks have begun, the counter of the free inputs (log 1). -/
  tickNo : Nat
  /-- The model's own: the parameters of the machine, which no step changes (log 7). -/
  params : Params
deriving DecidableEq, Repr

/-- The machine of parameters `p` right after the construction with an empty program (R40, 70_reset_and_hazards.md R210):
memory lists nothing, so it holds FONT and INIT_MEM (`resetByte`). -/
def State.resetWith (p : Params) : State where
  mem := []
  v := Vector.replicate 16 resetReg
  i := resetIndex
  pc := resetPc
  sp := 0
  stack := Vector.replicate 16 resetStackEntry
  dt := resetTimer
  st := resetTimer
  fb := Vector.replicate 32 (Vector.replicate 64 resetPixel)
  key := Vector.replicate 16 resetKey
  kw := .idle
  halt := .running
  randByte := 0x00
  diag := none
  inputs := []
  tickNo := 0
  params := p

/-- The machine right after reset (R40), with the default parameters (R8). -/
def State.reset : State := State.resetWith defaultParams

end Sys2Proof.Machine
end

