-- ==== Sys2Proof/Machine/Memory.lean ====
section
/-! DEFINITION. Memory as a list of cells in one canonical form (20_memory.md R50, R56): one byte read, one byte written. -/

namespace Sys2Proof.Machine

open Sys2Proof.Config

/-- MEM_SIZE (00_scope.md R7). -/
def memSize : Nat := 4096

/-- The byte at address `a` (R56): the listed one, else what the address held at reset. -/
def Memory.read (p : Params) : Memory → Nat → Byte
  | [], a => resetByte p a
  | (b, w) :: m, a => if a = b then w else Memory.read p m a

/-- Memory after byte `v` is stored at `a` (R56). The canonical form is kept: a byte equal to the reset byte is not listed. -/
def Memory.write (p : Params) : Memory → Nat → Byte → Memory
  | [], a, v => if v = resetByte p a then [] else [(a, v)]
  | (b, w) :: m, a, v =>
    if a < b then (if v = resetByte p a then (b, w) :: m else (a, v) :: (b, w) :: m)
    else if a = b then (if v = resetByte p a then m else (a, v) :: m)
    else (b, w) :: Memory.write p m a v

/-- The canonical form from address `lo` on: addresses at least `lo`, strictly rising, below 4096, and no entry equal to
what its address reads as unlisted. -/
def Memory.wfFrom (p : Params) : Nat → Memory → Bool
  | _, [] => true
  | lo, (b, w) :: m => decide (lo ≤ b) && decide (b < memSize) && decide (w ≠ resetByte p b) && Memory.wfFrom p (b + 1) m

/-- Memory is in canonical form: equal memories are equal lists. -/
def Memory.wf (p : Params) (m : Memory) : Bool := Memory.wfFrom p 0 m

end Sys2Proof.Machine
end

