-- ==== Sys2Proof/Machine/Ops.lean ====
section
/-! DEFINITION. The shared operations of the core: registers, memory, the call stack, pc, fatal errors and illegal-opcode
reports, the inputs of a tick and the timer phase. -/

namespace Sys2Proof.Machine

open Sys2Proof.Config

/-! ### Registers (10_state.md R21, R22) -/

/-- VF is `V[15]` (R22). -/
def vf : Reg := 15

/-- `V[x]`. -/
def State.getV (s : State) (x : Reg) : Byte := s.v[x]

/-- `V[x] <- b`. -/
def State.setV (s : State) (x : Reg) (b : Byte) : State := { s with v := s.v.set x b }

/-! ### Fatal errors and illegal opcodes (60_exceptions.md R181 to R184) -/

/-- `raise Fatal(kind, info)`: the session ends, and nothing but the fatal status is exposed (R184, R195; log 3). -/
def raiseFatal (r : Fault) : Host.Outcome State Fault Refusal := .fault r

/-- The core inside after `raise Fatal`: `halt <- Halted(kind, info)` (R184). No tick answers it as a next state, and every
tick of it is the same fatal status again (log 3). -/
def State.halted (s : State) (r : Fault) : State := { s with halt := .halted r }

/-- `report Illegal(opcode, addr)`: the diagnostic record of this tick, and no other change (R181; log 17). -/
def State.reportIllegal (s : State) (w a : Word) : State := { s with diag := some ⟨w, a⟩ }

/-! ### The program counter (R25, R100) -/

/-- `pc <- target` (00_scope.md R11). -/
def State.setPc (s : State) (target : Word) : State := { s with pc := target }

/-- `pc <- pc + 2`: the increment before dispatch, and a taken skip (30_encoding.md R76, 40_control_flow.md R100). -/
def State.advancePc (s : State) : State := s.setPc (s.pc + 2)

/-- `pc <- pc - 2`: KEYD rewinds to its own address (45_input_timer.md R163). -/
def State.rewindPc (s : State) : State := s.setPc (s.pc - 2)

/-- A skip: `pc <- pc + 2` when the condition holds (R100). -/
def State.skipIf (s : State) (c : Bool) : State := s.setPc (if c then s.pc + 2 else s.pc)

/-- The address `a` the executing instruction was fetched from: pc = a + 2 on entry (00_scope.md R15). -/
def State.instrAddr (s : State) : Word := s.pc - 2

/-! ### Memory (20_memory.md R53 to R56) -/

/-- The first byte address out of 0..0xFFF among the `n` bytes from `base`, if there is one (R53, R140): an exact sum,
with no wrap. -/
def firstOutOfRange (base n : Nat) : Option Nat :=
  if n = 0 then none
  else if memSize ≤ base then some base
  else if memSize < base + n then some memSize
  else none

/-- `MemRead(addr, 1)`. -/
def State.memRead (s : State) (a : Nat) : Byte := s.mem.read s.params a

/-- `MemWrite(addr, 1, b)`. -/
def State.memWrite (s : State) (a : Nat) (b : Byte) : State := { s with mem := s.mem.write s.params a b }

/-- The `n` bytes from `a`, in ascending order (R55). -/
def State.memReadBytes (s : State) (a n : Nat) : List Byte := (List.range n).map fun k => s.memRead (a + k)

/-- The bytes `bs` stored from address `a` on, ascending (20_memory.md R55). -/
def State.memWriteBytes (s : State) (a : Nat) : List Byte → State
  | [] => s
  | b :: bs => (s.memWrite a b).memWriteBytes (a + 1) bs

/-- `Fetch(addr)` at pc: the word, or the fatal error of a fetch out of range (00_scope.md R12, R53). -/
def State.fetch (s : State) : Except Fault Word :=
  match firstOutOfRange s.pc.toNat 2 with
  | some a => .error (.memOutOfRange a)
  | none => .ok (wordOfBytes (s.memRead s.pc.toNat) (s.memRead (s.pc.toNat + 1)))

/-- Run `next` if the `n` bytes from `base` are in range, else raise MemOutOfRange before anything is written (R54, R183). -/
def checkedRange (base n : Nat) (next : State) : Host.Outcome State Fault Refusal :=
  match firstOutOfRange base n with
  | some a => raiseFatal (.memOutOfRange a)
  | none => .next next

/-! ### The index register (R24) -/

/-- `I <- w`. -/
def State.setI (s : State) (w : Word) : State := { s with i := w }

/-! ### The call stack (R27) -/

/-- `stack[SP] <- w; SP <- SP + 1`, or none when SP = 16. -/
def State.push (s : State) (w : Word) : Option State :=
  if h : s.sp.val < 16 then some { s with stack := s.stack.set s.sp.val w, sp := ⟨s.sp.val + 1, by omega⟩ } else none

/-- `SP <- SP - 1` and the entry at the new SP, or none when SP = 0. -/
def State.pop (s : State) : Option (State × Word) :=
  if h : s.sp.val = 0 then none
  else some ({ s with sp := ⟨s.sp.val - 1, by omega⟩ }, s.stack[s.sp.val - 1])

/-! ### Keys (10_state.md R33, 60_exceptions.md R192) -/

/-- `key_event(k, p)`: `KEY[k] <- p` (R192). -/
def keyEvent (key : Vector Bool 16) (e : KeyEvent) : Vector Bool 16 := key.set e.key e.pressed

/-- The events before a tick, applied in order of arrival: the last one for a key wins (R192; log 2). -/
def keyEvents (key : Vector Bool 16) (es : List KeyEvent) : Vector Bool 16 := es.foldl keyEvent key

/-- The lowest pressed key, if any key is pressed. -/
def lowestPressed (key : Vector Bool 16) : Option (Fin 16) := (List.finRange 16).find? fun k => key[k]

/-- KEYD_PICK: a pressed key if there is one (45_input_timer.md R163; log 8). -/
def pickKey (p : Params) (key : Vector Bool 16) : Option (Fin 16) :=
  match p.keydPick with
  | .lowest => lowestPressed key
  | .free => if key[freeKeyChoice key] then some (freeKeyChoice key) else lowestPressed key

/-! ### A tick before its fetch (30_encoding.md R76, 60_exceptions.md R190) -/

/-- The input of the next tick: the first that State lists, else a free value (log 1). -/
def State.nextInput (s : State) : TickInput :=
  match s.inputs with
  | [] => freeTickInput s.tickNo
  | inp :: _ => inp

/-- `if t > 0: t <- t - 1`, when the timer driver is due (R190). -/
def countDown (due : Bool) (t : Byte) : Byte := if due && t != 0 then t - 1 else t

/-- `TimerPhase(timer_due)` (R190). -/
def State.timerPhase (s : State) (due : Bool) : State := { s with dt := countDown due s.dt, st := countDown due s.st }

/-- The inputs of this tick are taken: the key events before it are applied and rand_byte is sampled, and the diagnostic
output is cleared (R192, R195, R196). -/
def State.takeInput (s : State) : State :=
  { s with
    key := keyEvents s.key s.nextInput.events
    randByte := s.nextInput.randByte
    diag := none
    inputs := s.inputs.tail
    tickNo := s.tickNo + 1 }

/-- Everything a tick does before its fetch: its inputs, then the timer phase (R76). -/
def State.beginTick (s : State) : State := s.takeInput.timerPhase s.nextInput.timerDue

end Sys2Proof.Machine
end

