-- ==== Sys2Proof/Machine/Flags.lean ====
section
/-! DEFINITION. The flag computations (42_arith_flags.md R130 to R135) and the two orders of the flag and the result write.
VF is the only flag (10_state.md R23). -/

namespace Sys2Proof.Machine

/-- A Boolean written into a register: 1 for true, 0 for false (00_scope.md R14). -/
def flagByte (c : Bool) : Byte := if c then 1 else 0

/-- ADDR: carry out of bit 7, by the exact sum (R131). -/
def carryFlag (a b : Byte) : Byte := flagByte (decide (a.toNat + b.toNat > 255))

/-- SUB and SUBN: 1 means no borrow of `a - b`, that is `b <= a` unsigned (R132, R133). -/
def noBorrowFlag (a b : Byte) : Byte := flagByte (decide (b.toNat ≤ a.toNat))

/-- SHR: the bit shifted out, the old bit 0 (R134). -/
def shrFlag (a : Byte) : Byte := a &&& 1

/-- SHL: the bit shifted out, the old bit 7, as 0 or 1 (R135). -/
def shlFlag (a : Byte) : Byte := flagByte (a &&& 0x80 != 0)

/-- An instruction that writes `flag` into VF and `result` into V[x], each computed from V[x] and V[y], in the order
VF_ORDER selects (R130; log 9). Under flag_first the result reads the registers after the VF write. -/
def State.writeFlagged (s : State) (x y : Reg) (flag result : Byte → Byte → Byte) : State :=
  match s.params.vfOrder with
  | .flagFirst =>
    let s1 := s.setV vf (flag (s.getV x) (s.getV y))
    s1.setV x (result (s1.getV x) (s1.getV y))
  | .flagLast =>
    (s.setV x (result (s.getV x) (s.getV y))).setV vf (flag (s.getV x) (s.getV y))

end Sys2Proof.Machine
end

