-- ==== Sys2Proof/Machine/Arith.lean ====
section
/-! DEFINITION. Arithmetic with flags (42_arith_flags.md): a flag into VF and a result into VX, in the order of R130. -/

namespace Sys2Proof.Machine

/-- ADDR VX,VY (R131). -/
def execAddr (x y : Reg) (s : State) : Host.Outcome State Fault Refusal :=
  .next (s.writeFlagged x y carryFlag fun a b => a + b)

/-- SUB VX,VY (R132). -/
def execSub (x y : Reg) (s : State) : Host.Outcome State Fault Refusal :=
  .next (s.writeFlagged x y noBorrowFlag fun a b => a - b)

/-- SUBN VX,VY (R133): SUB with both operands swapped. -/
def execSubn (x y : Reg) (s : State) : Host.Outcome State Fault Refusal :=
  .next (s.writeFlagged x y (fun a b => noBorrowFlag b a) fun a b => b - a)

/-- SHR VX (R134): VX alone is shifted; VY is not read. -/
def execShr (x _y : Reg) (s : State) : Host.Outcome State Fault Refusal :=
  .next (s.writeFlagged x x (fun a _ => shrFlag a) fun a _ => a >>> 1)

/-- SHL VX (R135): VX alone is shifted; VY is not read. -/
def execShl (x _y : Reg) (s : State) : Host.Outcome State Fault Refusal :=
  .next (s.writeFlagged x x (fun a _ => shlFlag a) fun a _ => a <<< 1)

end Sys2Proof.Machine
end

