-- ==== Sys2Proof/Machine/Operands.lean ====
section
/-! DEFINITION. The operand forms of the instructions (30_encoding.md R71, R73, 43_index_memory.md R140): immediates, the
sprite and block operands in memory at I, the key a register names, the address of a glyph. -/

namespace Sys2Proof.Machine

/-- The base of every data access: I as an exact natural number (R140). -/
def State.dataBase (s : State) : Nat := s.i.toNat

/-- The registers of the block V0..VX, ascending (43_index_memory.md R145, R146). -/
def blockRegs (x : Reg) : List Reg := (List.finRange 16).take (x.val + 1)

/-- The address of the glyph of digit `d`: `zext_16(d) * 5`, not masked to 4 bits (43_index_memory.md R143). -/
def glyphAddr (d : Byte) : Word := zext16 d * 5

/-- The key `V[x]` names, or the fatal error of an index above 15 (45_input_timer.md R161; log 16). -/
def State.keyOperand (s : State) (x : Reg) : Except Fault (Fin 16) :=
  if h : (s.getV x).toNat < 16 then .ok ⟨(s.getV x).toNat, h⟩ else .error (.keyIndexOutOfRange (s.getV x))

/-- The decimal digits of a byte: hundreds, tens, units (43_index_memory.md R144). -/
def bcdDigits (b : Byte) : List Byte := [b / 100, b / 10 % 10, b % 10]

end Sys2Proof.Machine
end

