-- ==== Sys2Proof/Machine/Control.lean ====
section
/-! DEFINITION. Control flow (40_control_flow.md): JUMP, CALL, RET, JUMPI and the four skips. On entry pc = a + 2. -/

namespace Sys2Proof.Machine

/-- JUMP NNN (R101). -/
def execJump (nnn : Addr12) (s : State) : Host.Outcome State Fault Refusal := .next (s.setPc (zext16 nnn))

/-- CALL NNN (R102): the return address is the already advanced pc. -/
def execCall (nnn : Addr12) (s : State) : Host.Outcome State Fault Refusal :=
  match s.push s.pc with
  | none => raiseFatal (.stackOverflow s.instrAddr)
  | some t => .next (t.setPc (zext16 nnn))

/-- RET (R103). -/
def execRet (s : State) : Host.Outcome State Fault Refusal :=
  match s.pop with
  | none => raiseFatal (.stackUnderflow s.instrAddr)
  | some (t, target) => .next (t.setPc target)

/-- JUMPI NNN (R104): always V0; the sum is not masked to 12 bits. -/
def execJumpi (nnn : Addr12) (s : State) : Host.Outcome State Fault Refusal :=
  .next (s.setPc (zext16 (s.getV 0) + zext16 nnn))

/-- SE VX,NN (R105). -/
def execSeImm (x : Reg) (nn : Byte) (s : State) : Host.Outcome State Fault Refusal := .next (s.skipIf (s.getV x == nn))

/-- SNE VX,NN (R106). -/
def execSneImm (x : Reg) (nn : Byte) (s : State) : Host.Outcome State Fault Refusal := .next (s.skipIf (s.getV x != nn))

/-- SE VX,VY (R107); the low nibble is not read (30_encoding.md R79). -/
def execSeReg (x y : Reg) (_n : Nibble) (s : State) : Host.Outcome State Fault Refusal := .next (s.skipIf (s.getV x == s.getV y))

/-- SNE VX,VY (R108); the low nibble is not read (30_encoding.md R79). -/
def execSneReg (x y : Reg) (_n : Nibble) (s : State) : Host.Outcome State Fault Refusal := .next (s.skipIf (s.getV x != s.getV y))

end Sys2Proof.Machine
end

