-- ==== Sys2Proof/Machine/Display.lean ====
section
/-! DEFINITION. The framebuffer XOR engine (44_display.md): CLS and DRAW. -/

namespace Sys2Proof.Machine

/-- Every pixel off (R151). -/
def blankFrame : Frame := Vector.replicate 32 (Vector.replicate 64 false)

/-- CLS (R151). -/
def execCls (s : State) : Host.Outcome State Fault Refusal := .next { s with fb := blankFrame }

/-- Whether a sprite byte has the pixel of column `col` set: column 0 is bit 7 (R153; log 15). -/
def spriteBit (b : Byte) (col : Nat) : Bool := b.getLsbD (7 - col)

/-- `px = (x0 + col) mod 64` (R152). -/
def pixelX (x0 : Byte) (col : Nat) : Fin 64 := Fin.ofNat 64 (x0.toNat + col)

/-- `py = (y0 + row) mod 32` (R152). -/
def pixelY (y0 : Byte) (row : Nat) : Fin 32 := Fin.ofNat 32 (y0.toNat + row)

/-- `FB[py][px] <- FB[py][px] XOR 1`. -/
def togglePixel (fb : Frame) (px : Fin 64) (py : Fin 32) : Frame := fb.set py (fb[py].set px (!fb[py][px]))

/-- The engine's working values: the framebuffer, and whether an on pixel has been turned off so far (R152). -/
structure Canvas where
  fb : Frame
  hit : Bool
deriving DecidableEq, Repr

/-- The loop body of DRAW for one column of one row (R152). -/
def drawPixel (x0 y0 : Byte) (row : Nat) (b : Byte) (c : Canvas) (col : Nat) : Canvas :=
  if spriteBit b col then
    { fb := togglePixel c.fb (pixelX x0 col) (pixelY y0 row), hit := c.hit || c.fb[pixelY y0 row][pixelX x0 col] }
  else c

/-- One row of the sprite, column 0 to 7 (R152). -/
def drawRow (x0 y0 : Byte) (row : Nat) (b : Byte) (c : Canvas) : Canvas := (List.range 8).foldl (drawPixel x0 y0 row b) c

/-- The rows `bs` of a sprite, the first of them being row number `row` (R152). -/
def drawRows (x0 y0 : Byte) : Nat → List Byte → Canvas → Canvas
  | _, [], c => c
  | row, b :: bs, c => drawRows x0 y0 (row + 1) bs (drawRow x0 y0 row b c)

/-- DRAW VX,VY,N (R152): the coordinates are sampled before VF is written (log 15); VF becomes the collision flag. -/
def execDraw (x y : Reg) (n : Nibble) (s : State) : Host.Outcome State Fault Refusal :=
  let c := drawRows (s.getV x) (s.getV y) 0 (s.memReadBytes s.dataBase n.val) ⟨s.fb, false⟩
  checkedRange s.dataBase n.val ({ s with fb := c.fb }.setV vf (flagByte c.hit))

end Sys2Proof.Machine
end

