-- ==== Sys2Proof/Machine/IndexMemory.lean ====
section
/-! DEFINITION. The index register and the memory blocks (43_index_memory.md). -/

namespace Sys2Proof.Machine

/-- LOADI NNN (R141). -/
def execLoadi (nnn : Addr12) (s : State) : Host.Outcome State Fault Refusal := .next (s.setI (zext16 nnn))

/-- ADDI VX (R142): mod 65536, VF unchanged. -/
def execAddi (x : Reg) (s : State) : Host.Outcome State Fault Refusal := .next (s.setI (s.i + zext16 (s.getV x)))

/-- LDSPR VX (R143). -/
def execLdspr (x : Reg) (s : State) : Host.Outcome State Fault Refusal := .next (s.setI (glyphAddr (s.getV x)))

/-- BCD VX (R144): I is unchanged. -/
def execBcd (x : Reg) (s : State) : Host.Outcome State Fault Refusal :=
  checkedRange s.dataBase 3 (s.memWriteBytes s.dataBase (bcdDigits (s.getV x)))

/-- The loop of STOR: `MemWrite(I, 1, V[r]); I <- I + 1` for each register (R145). -/
def State.storeRegs (s : State) : List Reg → State
  | [] => s
  | r :: rs => ((s.memWrite s.i.toNat (s.getV r)).setI (s.i + 1)).storeRegs rs

/-- STOR VX (R145). -/
def execStor (x : Reg) (s : State) : Host.Outcome State Fault Refusal :=
  checkedRange s.dataBase (x.val + 1) (s.storeRegs (blockRegs x))

/-- The loop of READ: `V[r] <- MemRead(I, 1); I <- I + 1` for each register (R146). -/
def State.loadRegs (s : State) : List Reg → State
  | [] => s
  | r :: rs => ((s.setV r (s.memRead s.i.toNat)).setI (s.i + 1)).loadRegs rs

/-- READ VX (R146). -/
def execRead (x : Reg) (s : State) : Host.Outcome State Fault Refusal :=
  checkedRange s.dataBase (x.val + 1) (s.loadRegs (blockRegs x))

end Sys2Proof.Machine
end

