-- ==== Sys2Proof/Machine/Input.lean ====
section
/-! DEFINITION. Input and timer instructions (45_input_timer.md). Keys and timers are read as they stand after the start of
the tick (R160). -/

namespace Sys2Proof.Machine

/-- SKPR VX (R161). -/
def execSkpr (x : Reg) (s : State) : Host.Outcome State Fault Refusal :=
  match s.keyOperand x with
  | .error r => raiseFatal r
  | .ok k => .next (s.skipIf s.key[k])

/-- SKUP VX (R162). -/
def execSkup (x : Reg) (s : State) : Host.Outcome State Fault Refusal :=
  match s.keyOperand x with
  | .error r => raiseFatal r
  | .ok k => .next (s.skipIf (!s.key[k]))

/-- One execution of KEYD: capture, wait for the release, or complete (R163). -/
def State.keyWait (s : State) (x : Reg) : State :=
  match s.kw with
  | .idle =>
    match pickKey s.params s.key with
    | some k => { s.setV x (BitVec.ofNat 8 k.val) with kw := .captured k }.rewindPc
    | none => s.rewindPc
  | .captured k => if s.key[k] then s.rewindPc else { s with kw := .idle }

/-- KEYD VX (R163). -/
def execKeyd (x : Reg) (s : State) : Host.Outcome State Fault Refusal := .next (s.keyWait x)

/-- MOVED VX (R164). -/
def execMoved (x : Reg) (s : State) : Host.Outcome State Fault Refusal := .next (s.setV x s.dt)

/-- LOADD VX (R165). -/
def execLoadd (x : Reg) (s : State) : Host.Outcome State Fault Refusal := .next { s with dt := s.getV x }

/-- LOADS VX (R166). -/
def execLoads (x : Reg) (s : State) : Host.Outcome State Fault Refusal := .next { s with st := s.getV x }

end Sys2Proof.Machine
end

