-- ==== Sys2Proof/Machine/LoadLogic.lean ====
section
/-! DEFINITION. Immediate and register operations (41_load_logic.md): none writes VF except as X = F (R120). -/

namespace Sys2Proof.Machine

/-- LOAD VX,NN (R121). -/
def execLoad (x : Reg) (nn : Byte) (s : State) : Host.Outcome State Fault Refusal := .next (s.setV x nn)

/-- ADD VX,NN (R122): mod 256, no carry flag. -/
def execAdd (x : Reg) (nn : Byte) (s : State) : Host.Outcome State Fault Refusal := .next (s.setV x (s.getV x + nn))

/-- MOVE VX,VY (R123). -/
def execMove (x y : Reg) (s : State) : Host.Outcome State Fault Refusal := .next (s.setV x (s.getV y))

/-- OR VX,VY (R124). -/
def execOr (x y : Reg) (s : State) : Host.Outcome State Fault Refusal := .next (s.setV x (s.getV x ||| s.getV y))

/-- AND VX,VY (R125). -/
def execAnd (x y : Reg) (s : State) : Host.Outcome State Fault Refusal := .next (s.setV x (s.getV x &&& s.getV y))

/-- XOR VX,VY (R126). -/
def execXor (x y : Reg) (s : State) : Host.Outcome State Fault Refusal := .next (s.setV x (s.getV x ^^^ s.getV y))

end Sys2Proof.Machine
end

