-- ==== Sys2Proof/Machine/Random.lean ====
section
/-! DEFINITION. Randomness (46_random.md). -/

namespace Sys2Proof.Machine

/-- RAND VX,NN (R170): `RandByte()` is the byte sampled with this tick, of which nothing is assumed (log 1). -/
def execRand (x : Reg) (nn : Byte) (s : State) : Host.Outcome State Fault Refusal := .next (s.setV x (s.randByte &&& nn))

end Sys2Proof.Machine
end

