-- ==== Sys2Proof/Machine/Dispatch.lean ====
section
/-! DEFINITION. `Execute(op, a)` (30_encoding.md R76): one arm per instruction, on a state whose pc is already a + 2. -/

namespace Sys2Proof.Machine

def exec (i : Instr) (s : State) : Host.Outcome State Fault Refusal :=
  match i with
  | .cls => Sys2Proof.Machine.execCls s
  | .ret => Sys2Proof.Machine.execRet s
  | .jump nnn => Sys2Proof.Machine.execJump nnn s
  | .call nnn => Sys2Proof.Machine.execCall nnn s
  | .seImm x nn => Sys2Proof.Machine.execSeImm x nn s
  | .sneImm x nn => Sys2Proof.Machine.execSneImm x nn s
  | .seReg x y n => Sys2Proof.Machine.execSeReg x y n s
  | .load x nn => Sys2Proof.Machine.execLoad x nn s
  | .add x nn => Sys2Proof.Machine.execAdd x nn s
  | .move x y => Sys2Proof.Machine.execMove x y s
  | .or x y => Sys2Proof.Machine.execOr x y s
  | .and x y => Sys2Proof.Machine.execAnd x y s
  | .xor x y => Sys2Proof.Machine.execXor x y s
  | .addr x y => Sys2Proof.Machine.execAddr x y s
  | .sub x y => Sys2Proof.Machine.execSub x y s
  | .shr x y => Sys2Proof.Machine.execShr x y s
  | .subn x y => Sys2Proof.Machine.execSubn x y s
  | .shl x y => Sys2Proof.Machine.execShl x y s
  | .sneReg x y n => Sys2Proof.Machine.execSneReg x y n s
  | .loadi nnn => Sys2Proof.Machine.execLoadi nnn s
  | .jumpi nnn => Sys2Proof.Machine.execJumpi nnn s
  | .rand x nn => Sys2Proof.Machine.execRand x nn s
  | .draw x y n => Sys2Proof.Machine.execDraw x y n s
  | .skpr x => Sys2Proof.Machine.execSkpr x s
  | .skup x => Sys2Proof.Machine.execSkup x s
  | .moved x => Sys2Proof.Machine.execMoved x s
  | .keyd x => Sys2Proof.Machine.execKeyd x s
  | .loadd x => Sys2Proof.Machine.execLoadd x s
  | .loads x => Sys2Proof.Machine.execLoads x s
  | .addi x => Sys2Proof.Machine.execAddi x s
  | .ldspr x => Sys2Proof.Machine.execLdspr x s
  | .bcd x => Sys2Proof.Machine.execBcd x s
  | .stor x => Sys2Proof.Machine.execStor x s
  | .read x => Sys2Proof.Machine.execRead x s

end Sys2Proof.Machine
end

