-- ==== Sys2Proof/Machine/Step.lean ====
section
/-! DEFINITION. One tick of the core (30_encoding.md R76), and the word a tick fetches. -/

namespace Sys2Proof.Machine

/-- `Tick(timer_due, rand_byte)` (R76): a halted core shows its fatal status and does nothing (60_exceptions.md R184;
log 3); else the inputs and the timer phase, the fetch, the pc increment, and the instruction or the report of an illegal
opcode (60_exceptions.md R181). -/
def step (s : State) : Host.Outcome State Fault Refusal :=
  match s.halt with
  | .halted r => raiseFatal r
  | .running =>
    match s.beginTick.fetch with
    | .error r => raiseFatal r
    | .ok w =>
      match decodeWord s.params.strict59 w with
      | none => .next (s.beginTick.advancePc.reportIllegal w s.pc)
      | some i => exec i s.beginTick.advancePc

/-- `s` with the word `w` stored where the next tick fetches (20_memory.md R51), the byte at pc first. -/
def State.withFetchWord (s : State) (_nbits w : Nat) : State :=
  s.memWriteBytes s.pc.toNat (bytesOfWord (BitVec.ofNat 16 w))

end Sys2Proof.Machine
end

