-- ==== Sys2Proof/Machine/Assembly.lean ====
section
/-! DEFINITION. The assembly syntax (30_encoding.md R81; log 22): an instruction from its line of text, and the line of an
instruction. Text is a list of characters. -/

namespace Sys2Proof.Machine

/-- One operand: a register, or a number (NN, NNN or N, by the instruction). -/
inductive AsmOperand where
  | reg (x : Reg)
  | num (n : Nat)
deriving DecidableEq, Repr

/-- A mnemonic and its operands. -/
structure AsmLine where
  mnemonic : String
  operands : List AsmOperand
deriving DecidableEq, Repr

/-! ### The operand forms: the assembly column of R75 -/

def asmNone (i : Instr) : List AsmOperand → Option Instr
  | [] => some i
  | _ => none

def asmNNN (f : Addr12 → Instr) : List AsmOperand → Option Instr
  | [.num n] => if n ≤ 0xFFF then some (f (BitVec.ofNat 12 n)) else none
  | _ => none

def asmXNN (f : Reg → Byte → Instr) : List AsmOperand → Option Instr
  | [.reg x, .num n] => if n ≤ 0xFF then some (f x (BitVec.ofNat 8 n)) else none
  | _ => none

def asmXY (f : Reg → Reg → Instr) : List AsmOperand → Option Instr
  | [.reg x, .reg y] => some (f x y)
  | _ => none

def asmX (f : Reg → Instr) : List AsmOperand → Option Instr
  | [.reg x] => some (f x)
  | _ => none

def asmXYN (f : Reg → Reg → Nibble → Instr) : List AsmOperand → Option Instr
  | [.reg x, .reg y, .num n] => if h : n < 16 then some (f x y ⟨n, h⟩) else none
  | _ => none

/-- SHR and SHL: a second register is encoded in Y; written without one, Y is 0 (R81). -/
def asmShift (f : Reg → Reg → Instr) (ops : List AsmOperand) : Option Instr :=
  match asmXY f ops with
  | some i => some i
  | none => asmX (fun x => f x 0) ops

/-- SE and SNE: the kind of the second operand selects the instruction (R81). -/
def asmSkip (f : Reg → Byte → Instr) (g : Reg → Reg → Instr) (ops : List AsmOperand) : Option Instr :=
  match asmXNN f ops with
  | some i => some i
  | none => asmXY g ops

/-- The mnemonics, and the operands each takes (R75, R81). -/
def asmTable : List (String × (List AsmOperand → Option Instr)) :=
  [("CLS", asmNone .cls), ("RET", asmNone .ret), ("JUMP", asmNNN .jump), ("CALL", asmNNN .call),
    ("SE", asmSkip .seImm fun x y => .seReg x y 0), ("SNE", asmSkip .sneImm fun x y => .sneReg x y 0),
    ("LOAD", asmXNN .load), ("ADD", asmXNN .add), ("MOVE", asmXY .move), ("OR", asmXY .or), ("AND", asmXY .and),
    ("XOR", asmXY .xor), ("ADDR", asmXY .addr), ("SUB", asmXY .sub), ("SHR", asmShift .shr), ("SUBN", asmXY .subn),
    ("SHL", asmShift .shl), ("LOADI", asmNNN .loadi), ("JUMPI", asmNNN .jumpi), ("RAND", asmXNN .rand),
    ("DRAW", asmXYN .draw), ("SKPR", asmX .skpr), ("SKUP", asmX .skup), ("MOVED", asmX .moved), ("KEYD", asmX .keyd),
    ("LOADD", asmX .loadd), ("LOADS", asmX .loads), ("ADDI", asmX .addi), ("LDSPR", asmX .ldspr), ("BCD", asmX .bcd),
    ("STOR", asmX .stor), ("READ", asmX .read)]

/-- The instruction of a mnemonic with operands, if the mnemonic takes them and every number fits its field. -/
def assemble (l : AsmLine) : Option Instr :=
  match asmTable.find? fun row => row.1 == l.mnemonic with
  | some row => row.2 l.operands
  | none => none

/-- The line of an instruction; 5XYN and 9XYN with N other than 0 have none (R75, R79). SHR and SHL show both registers. -/
def disassemble : Instr → Option AsmLine
  | .cls => some ⟨"CLS", []⟩
  | .ret => some ⟨"RET", []⟩
  | .jump nnn => some ⟨"JUMP", [.num nnn.toNat]⟩
  | .call nnn => some ⟨"CALL", [.num nnn.toNat]⟩
  | .seImm x nn => some ⟨"SE", [.reg x, .num nn.toNat]⟩
  | .sneImm x nn => some ⟨"SNE", [.reg x, .num nn.toNat]⟩
  | .seReg x y n => if n = 0 then some ⟨"SE", [.reg x, .reg y]⟩ else none
  | .load x nn => some ⟨"LOAD", [.reg x, .num nn.toNat]⟩
  | .add x nn => some ⟨"ADD", [.reg x, .num nn.toNat]⟩
  | .move x y => some ⟨"MOVE", [.reg x, .reg y]⟩
  | .or x y => some ⟨"OR", [.reg x, .reg y]⟩
  | .and x y => some ⟨"AND", [.reg x, .reg y]⟩
  | .xor x y => some ⟨"XOR", [.reg x, .reg y]⟩
  | .addr x y => some ⟨"ADDR", [.reg x, .reg y]⟩
  | .sub x y => some ⟨"SUB", [.reg x, .reg y]⟩
  | .shr x y => some ⟨"SHR", [.reg x, .reg y]⟩
  | .subn x y => some ⟨"SUBN", [.reg x, .reg y]⟩
  | .shl x y => some ⟨"SHL", [.reg x, .reg y]⟩
  | .sneReg x y n => if n = 0 then some ⟨"SNE", [.reg x, .reg y]⟩ else none
  | .loadi nnn => some ⟨"LOADI", [.num nnn.toNat]⟩
  | .jumpi nnn => some ⟨"JUMPI", [.num nnn.toNat]⟩
  | .rand x nn => some ⟨"RAND", [.reg x, .num nn.toNat]⟩
  | .draw x y n => some ⟨"DRAW", [.reg x, .reg y, .num n.val]⟩
  | .skpr x => some ⟨"SKPR", [.reg x]⟩
  | .skup x => some ⟨"SKUP", [.reg x]⟩
  | .moved x => some ⟨"MOVED", [.reg x]⟩
  | .keyd x => some ⟨"KEYD", [.reg x]⟩
  | .loadd x => some ⟨"LOADD", [.reg x]⟩
  | .loads x => some ⟨"LOADS", [.reg x]⟩
  | .addi x => some ⟨"ADDI", [.reg x]⟩
  | .ldspr x => some ⟨"LDSPR", [.reg x]⟩
  | .bcd x => some ⟨"BCD", [.reg x]⟩
  | .stor x => some ⟨"STOR", [.reg x]⟩
  | .read x => some ⟨"READ", [.reg x]⟩

/-! ### Text -/

/-- The value of a hexadecimal digit. -/
def hexDigit (c : Char) : Option (Fin 16) :=
  ("0123456789ABCDEF".toList.zip (List.finRange 16)).lookup c

/-- The number whose digits in base `base` are the characters, the first the most significant. -/
def digitsValue (base : Nat) : Nat → List Char → Option Nat
  | acc, [] => some acc
  | acc, c :: cs =>
    match hexDigit c with
    | some d => if d.val < base then digitsValue base (acc * base + d.val) cs else none
    | none => none

/-- A register `V0` to `VF`, a decimal number, or a hexadecimal one after `0x` (R81). -/
def parseOperand : List Char → Option AsmOperand
  | ['V', c] => (hexDigit c).map .reg
  | '0' :: 'x' :: c :: cs => (digitsValue 16 0 (c :: cs)).map .num
  | c :: cs => (digitsValue 10 0 (c :: cs)).map .num
  | [] => none

/-- The text up to the first `sep`, and the text after it if there is one. -/
def cutAt (sep : Char) : List Char → List Char × Option (List Char)
  | [] => ([], none)
  | c :: cs => if c = sep then ([], some cs) else let (a, b) := cutAt sep cs; (c :: a, b)

/-- Operands separated by commas. -/
def parseOperands : List Char → List Char → Option (List AsmOperand)
  | cur, [] => (parseOperand cur.reverse).map fun o => [o]
  | cur, c :: cs =>
    if c = ',' then
      match parseOperand cur.reverse, parseOperands [] cs with
      | some o, some os => some (o :: os)
      | _, _ => none
    else parseOperands (c :: cur) cs

/-- The instruction a line of text stands for: a mnemonic, and after one space its operands (R81). -/
def parseLine (text : List Char) : Option Instr :=
  match cutAt ' ' text with
  | (m, none) => assemble ⟨String.ofList m, []⟩
  | (m, some ops) =>
    match parseOperands [] ops with
    | some os => assemble ⟨String.ofList m, os⟩
    | none => none

end Sys2Proof.Machine
end

