-- ==== Sys2Proof/Machine/Ports.lean ====
section
/-! DEFINITION. The outside of the core (60_exceptions.md R192 to R197): the construction with a program, and the outputs. -/

namespace Sys2Proof.Machine

open Sys2Proof.Config

/-- PROG_BASE (00_scope.md R7). -/
def progBase : Nat := 0x200
/-- PROG_MAX (00_scope.md R7). -/
def progMax : Nat := 3584

/-- The load error (60_exceptions.md R182, code 6). -/
inductive LoadError where
  | programTooLarge (length : Nat)
deriving DecidableEq, Repr

/-- The code of the load error (R182). -/
def LoadError.code : LoadError → Nat
  | .programTooLarge _ => 6

/-- The construction with a program (70_reset_and_hazards.md R210): the core right before its first tick, or the refusal of
a program that does not fit (R211). A program of 0 bytes gives `State.resetWith`. -/
def State.construct (p : Params) (program : List Byte) : Except LoadError State :=
  if program.length ≤ progMax then .ok ((State.resetWith p).memWriteBytes progBase program)
  else .error (.programTooLarge program.length)

/-- The scheduler's and the input collaborator's side (R197): the inputs of the ticks to come. -/
def State.withInputs (s : State) (inputs : List TickInput) : State := { s with inputs := inputs }

/-- `sound_enable = (ST != 0)` (10_state.md R31, R193; log 21). -/
def State.soundEnable (s : State) : Bool := s.st != 0

/-- The framebuffer snapshot (R194): pixel (x, y). -/
def State.pixel (s : State) (x : Fin 64) (y : Fin 32) : Bool := s.fb[y][x]

/-- The code of a fatal error (R182). -/
def Fault.code : Fault → Nat
  | .stackOverflow _ => 2
  | .stackUnderflow _ => 3
  | .memOutOfRange _ => 4
  | .keyIndexOutOfRange _ => 5

/-- The info a fatal error records (R182). -/
def Fault.info : Fault → Nat
  | .stackOverflow a => a.toNat
  | .stackUnderflow a => a.toNat
  | .memOutOfRange a => a
  | .keyIndexOutOfRange k => k.toNat

/-- The `fatal` output (R195, R196): code 0 while running, else the code and the info. At code 0 there is no info: so the
model reads the "none" of R182's table, which gives no number (DESIGN CHOICE, log 18). -/
def State.fatalStatus (s : State) : Nat × Option Nat :=
  match s.halt with
  | .running => (0, none)
  | .halted r => (r.code, some r.info)

/-- The `diag` output (R195, R196): nothing, or code 1 with the opcode and its address. -/
def State.diagOutput (s : State) : Option (Nat × Word × Word) := s.diag.map fun d => (1, d.opcode, d.addr)

end Sys2Proof.Machine
end

