-- ==== Sys2Proof/Safety.lean ====
section
/-! DEFINITION. The terms of the claims: when a tick can end the session (70_reset_and_hazards.md R214), and the invariants
every tick keeps. -/

namespace Sys2Proof.Machine

/-- The bytes a tick fetches are in memory (R214(b)). -/
def State.canFetch (s : State) : Prop := s.pc.toNat ≤ 0xFFE

/-- The `n` bytes from I are in memory (R214(b)); no bytes always are. -/
def State.dataInRange (s : State) (n : Nat) : Prop := n = 0 ∨ s.i.toNat + n ≤ 0x1000

/-- The condition software must respect for an instruction (R214(a) to (c)): where it fails, the instruction raises its
one fatal error (60_exceptions.md R182, R185). Every other instruction always completes. -/
def State.mayExecute (s : State) (i : Instr) : Prop :=
  match i with
  | .call _ => s.sp.val < 16
  | .ret => 0 < s.sp.val
  | .draw _ _ n => s.dataInRange n.val
  | .bcd _ => s.dataInRange 3
  | .stor x => s.dataInRange (x.val + 1)
  | .read x => s.dataInRange (x.val + 1)
  | .skpr x => (s.getV x).toNat ≤ 15
  | .skup x => (s.getV x).toNat ≤ 15
  | .cls | .jump _ | .seImm _ _ | .sneImm _ _ | .seReg _ _ _ | .load _ _ | .add _ _ | .move _ _ | .or _ _ | .and _ _
  | .xor _ _ | .addr _ _ | .sub _ _ | .shr _ _ | .subn _ _ | .shl _ _ | .sneReg _ _ _ | .loadi _ | .jumpi _ | .rand _ _
  | .moved _ | .keyd _ | .loadd _ | .loads _ | .addi _ | .ldspr _ => True

/-- Every live stack entry is a return address some CALL can push (10_state.md R26, R28). -/
def State.stackOk (s : State) : Prop := ∀ k : Fin 16, k.val < s.sp.val → s.stack[k].toNat ≤ 0x1000

/-- Memory is in canonical form, pc is where an instruction can leave it and never near a wrap (10_state.md R26), and the
live stack entries are return addresses. -/
def State.Inv (s : State) : Prop := s.mem.wf s.params = true ∧ s.pc.toNat ≤ 0x10FE ∧ s.stackOk

/-- While the latch holds a key, pc is at a KEYD whose register holds that key (45_input_timer.md R163: the word cannot
change while the core waits). -/
def State.KeyWaitInv (s : State) : Prop :=
  ∀ k, s.kw = .captured k →
    ∃ w x, s.fetch = .ok w ∧ decodeWord s.params.strict59 w = some (.keyd x) ∧ s.getV x = BitVec.ofNat 8 k.val

/-! ### What an instruction leaves unchanged -/

/-- Only data registers may differ: every other field, and every byte of memory, is as before. -/
def OnlyV (s t : State) : Prop := t = { s with v := t.v } ∧ ∀ a, t.memRead a = s.memRead a

/-- Only I may differ: every other field, and every byte of memory, is as before. -/
def OnlyI (s t : State) : Prop := t = { s with i := t.i } ∧ ∀ a, t.memRead a = s.memRead a

/-- Only pc may differ: every other field, and every byte of memory, is as before. -/
def OnlyPc (s t : State) : Prop := t = { s with pc := t.pc } ∧ ∀ a, t.memRead a = s.memRead a

/-- Every data register but `x` is as before. -/
def KeepsOtherV (x : Reg) (s t : State) : Prop := ∀ z, z ≠ x → t.getV z = s.getV z

/-! ### Words, sprites, sequences -/

/-- Every word that selects the row `mask`, `value` decodes to the instruction `f` reads from its fields, whatever
STRICT_5_9 is (30_encoding.md R75). -/
def EncodedAs (mask value : Word) (f : Word → Instr) : Prop :=
  ∀ strict w, w &&& mask = value → decodeWord strict w = some (f w)

/-- The sprite of `n` rows at I, drawn at (x0, y0), has a set bit at pixel (px, py) (44_display.md R152, R153): column 0
is bit 7, and both coordinates wrap. -/
def State.spriteCovers (s : State) (x0 y0 : Byte) (n : Nat) (px : Fin 64) (py : Fin 32) : Prop :=
  ∃ row col : Nat, row < n ∧ col < 8 ∧ (s.memRead (s.i.toNat + row)).getLsbD (7 - col) = true ∧
    px.val = (x0.toNat + col) % 64 ∧ py.val = (y0.toNat + row) % 32

/-- The instructions executed one after another, each on the state the one before it left. -/
def execAll : List Instr → State → Host.Outcome State Fault Refusal
  | [], s => .next s
  | i :: is, s =>
    match exec i s with
    | .next t => execAll is t
    | .fault r => .fault r
    | .refused r => .refused r

/-- The outcome with `f` applied to its next state. -/
def onNext (f : State → State) : Host.Outcome State Fault Refusal → Host.Outcome State Fault Refusal
  | .next t => .next (f t)
  | .fault r => .fault r
  | .refused r => .refused r

end Sys2Proof.Machine
end

