-- ==== Sys2Proof/Certificates/Slice0/Obligations.lean ====
section
/-! DEFINITION. The statements about the model, for the provers. Each docstring names the rule of spec/ it formalises; "log
<n>" marks a choice the spec leaves open. Every statement holds for every value of the parameters (log 7) and of the inputs
(log 1), since both stand in State. -/

open Sys2Proof Sys2Proof.Machine Sys2Proof.Config

/-! ### Reset and construction -/

/-- 10_state.md R40: what every element holds at reset, for every choice of the parameters. The values are the spec's own
decision D6 (log 5) but for pc, SP and the place of the font; the model's own fields are log 1 and log 7. -/
def Obligations.ResetLeavesTheValuesOfTheTable : Prop :=
  ∀ p : Params,
    let s := State.resetWith p
    s.pc.toNat = 0x200 ∧ s.sp.val = 0 ∧ (∀ k : Fin 16, s.stack[k] = 0) ∧ (∀ x, s.getV x = 0) ∧ s.i = 0 ∧ s.dt = 0 ∧
    s.st = 0 ∧ s.soundEnable = false ∧ (∀ x y, s.pixel x y = false) ∧ (∀ k : Fin 16, s.key[k] = false) ∧ s.kw = .idle ∧
    s.halt = .running ∧ s.params = p ∧
    (∀ k : Fin 80, s.memRead k.val = p.font[k]) ∧ (∀ a, 80 ≤ a → s.memRead a = p.initMem) ∧
    State.reset = State.resetWith ⟨standardFont, 0x00, false, .flagFirst, .lowest⟩

/-- 70_reset_and_hazards.md R210, R211: a program of at most 3584 bytes is copied to 0x200 on, over a core at reset; a
longer one is refused with code 6 and its length (the codes are the spec's decision D18, log 18). -/
def Obligations.ConstructionLoadsOrRefusesTheProgram : Prop :=
  ∀ (p : Params) (program : List Byte),
    (program.length ≤ 3584 →
      ∃ s, State.construct p program = .ok s ∧ s = { State.resetWith p with mem := s.mem } ∧ s.mem.wf p = true ∧
        (∀ (k : Nat) (h : k < program.length), s.memRead (0x200 + k) = program[k]) ∧
        (∀ a, (a < 0x200 ∨ 0x200 + program.length ≤ a) → s.memRead a = (State.resetWith p).memRead a)) ∧
    (3584 < program.length →
      ∃ e : LoadError, State.construct p program = .error e ∧ e = .programTooLarge program.length ∧ e.code = 6)

/-! ### The tick -/

/-- 30_encoding.md R76, 20_memory.md R51: when the two bytes at pc decode to `i`, a tick of a running core is `i` on the
state after the tick's start, with pc moved past the word. The byte order is D2 (log 12). -/
def Obligations.StepRunsTheDecodedInstruction : Prop :=
  ∀ (s : State) (i : Instr), s.halt = .running → s.pc.toNat ≤ 0xFFE →
    decodeWord s.params.strict59 (wordOfBytes (s.memRead s.pc.toNat) (s.memRead (s.pc.toNat + 1))) = some i →
    step s = exec i (s.beginTick.setPc (s.pc + 2)) ∧ (s.pc + 2).toNat = s.pc.toNat + 2

/-- 60_exceptions.md R181, 30_encoding.md R77: a tick that fetches an illegal word reports it with the address it was
fetched from (D25, log 17), leaves pc = a + 2, and changes nothing else beyond the start of the tick. -/
def Obligations.IllegalWordIsReportedAndSkipped : Prop :=
  ∀ s : State, s.halt = .running → s.pc.toNat ≤ 0xFFE →
    decodeWord s.params.strict59 (wordOfBytes (s.memRead s.pc.toNat) (s.memRead (s.pc.toNat + 1))) = none →
    ∃ t, step s = .next t ∧ t.pc.toNat = s.pc.toNat + 2 ∧
      t.diagOutput = some (1, wordOfBytes (s.memRead s.pc.toNat) (s.memRead (s.pc.toNat + 1)), s.pc) ∧
      t = { s.beginTick with pc := t.pc, diag := t.diag }

/-- 60_exceptions.md R182, R185, 20_memory.md R53: a fetch with pc above 0xFFE ends the session with MemOutOfRange (code
4) and the first byte address out of range, whatever the bytes below it are. -/
def Obligations.FetchOutOfRangeIsFatal : Prop :=
  ∀ s : State, s.halt = .running → 0xFFE < s.pc.toNat →
    ∃ r : Fault, step s = .fault r ∧ r.code = 4 ∧ r.info = if s.pc.toNat = 0xFFF then 0x1000 else s.pc.toNat

/-- 60_exceptions.md R184, R195: a halted core does nothing but show its fatal status again, and no tick answers a halted
state: the halted state is never a state of a run (the outcome chosen is log 3). That the fatal output has no info at code 0
is the model's reading of R182's table (log 18). -/
def Obligations.HaltedCoreNeverRuns : Prop :=
  (∀ (s : State) (r : Fault), step (s.halted r) = .fault r ∧ (s.halted r).fatalStatus = (r.code, some r.info)) ∧
  (∀ s t : State, step s = .next t → s.halt = .running ∧ t.halt = .running ∧ t.fatalStatus = (0, none))

/-- 60_exceptions.md R190: the timer phase of a tick that is due takes 1 from each timer that is above 0, whatever the
instruction is, and runs before it (30_encoding.md R76): the instruction, or the report of an illegal word, sees the timers
after it. That sound_enable is ST != 0 at every moment (10_state.md R31) is the choice of D16 (log 21), and where the tick's
timer_due comes from is the model's own (log 1). -/
def Obligations.TimerPhaseCountsDownToZeroFirst : Prop :=
  (∀ (s : State) (due : Bool), let t := s.timerPhase due
    t = { s with dt := t.dt, st := t.st } ∧
    t.dt.toNat = (if due = true ∧ 0 < s.dt.toNat then s.dt.toNat - 1 else s.dt.toNat) ∧
    t.st.toNat = (if due = true ∧ 0 < s.st.toNat then s.st.toNat - 1 else s.st.toNat) ∧
    (t.soundEnable = true ↔ 0 < t.st.toNat)) ∧
  (∀ s : State, s.halt = .running → s.pc.toNat ≤ 0xFFE →
    let op := decodeWord s.params.strict59 (wordOfBytes (s.memRead s.pc.toNat) (s.memRead (s.pc.toNat + 1)))
    s.beginTick.dt = (s.timerPhase s.nextInput.timerDue).dt ∧ s.beginTick.st = (s.timerPhase s.nextInput.timerDue).st ∧
    ((∃ i, op = some i ∧ step s = exec i (s.beginTick.setPc (s.pc + 2))) ∨
      (∃ t, op = none ∧ step s = .next t ∧ t.dt = s.beginTick.dt ∧ t.st = s.beginTick.st)))

/-- 60_exceptions.md R192: the key events listed for a tick are applied before its instruction, and the last event for a
key wins (D22, log 2); a key without an event keeps its state. -/
def Obligations.LastKeyEventWins : Prop :=
  ∀ (s : State) (inp : TickInput) (rest : List TickInput) (k : Fin 16), s.inputs = inp :: rest →
    s.beginTick.inputs = rest ∧ s.beginTick.randByte = inp.randByte ∧
    (∀ (before after : List KeyEvent) (e : KeyEvent), inp.events = before ++ e :: after → e.key = k →
      (∀ f ∈ after, f.key ≠ k) → s.beginTick.key[k] = e.pressed) ∧
    ((∀ f ∈ inp.events, f.key ≠ k) → s.beginTick.key[k] = s.key[k])

/-- 10_state.md R38, 60_exceptions.md R195 and the model's own fields (logs 1, 4 and 7): a tick never changes the
parameters, uses up one listed input, and leaves a report only when it fetched an illegal word. -/
def Obligations.TickKeepsParametersAndConsumesOneInput : Prop :=
  ∀ s t : State, step s = .next t →
    t.params = s.params ∧ t.inputs = s.inputs.tail ∧ t.tickNo = s.tickNo + 1 ∧
    (t.diag ≠ none ↔
      decodeWord s.params.strict59 (wordOfBytes (s.memRead s.pc.toNat) (s.memRead (s.pc.toNat + 1))) = none)

/-! ### Decoding -/

/-- 30_encoding.md R72: the six views of a word are its bits 15:12, 11:8, 7:4, 3:0, 7:0 and 11:0. -/
def Obligations.FieldsAreTheBitsOfTheWord : Prop :=
  ∀ w : Word,
    w.toNat = (fieldKind w).toNat * 4096 + (fieldX w).val * 256 + (fieldY w).val * 16 + (fieldN w).val ∧
    (fieldNN w).toNat = (fieldY w).val * 16 + (fieldN w).val ∧
    (fieldNNN w).toNat = (fieldX w).val * 256 + (fieldY w).val * 16 + (fieldN w).val

/-- 20_memory.md R51: the fetched word is mem[a]*256 + mem[a+1] (D2, log 12), at an odd address too (D3). -/
def Obligations.FetchIsBigEndian : Prop :=
  ∀ s : State, s.pc.toNat ≤ 0xFFE →
    ∃ w, s.fetch = .ok w ∧ w.toNat = (s.memRead s.pc.toNat).toNat * 256 + (s.memRead (s.pc.toNat + 1)).toNat

/-- 30_encoding.md R75, R77 to R80: the map has 34 rows that no word selects twice, a word that selects a row decodes to
an instruction of that row, and a word that selects none is illegal. The patterns are log 11, STRICT_5_9 is log 10, family
0 is log 17. -/
def Obligations.DecodingFollowsTheOpcodeMap : Prop :=
  ∀ (strict : Bool) (w : Word),
    (opcodeMap strict).length = 34 ∧
    (∀ r ∈ opcodeMap strict, ∀ r' ∈ opcodeMap strict, r.selects w = true → r'.selects w = true → r = r') ∧
    (∀ i, decodeWord strict w = some i → i.row strict ∈ opcodeMap strict ∧ (i.row strict).selects w = true) ∧
    (decodeWord strict w = none ↔ ∀ r ∈ opcodeMap strict, r.selects w = false)

/-- 30_encoding.md R77, R79: the illegal words, listed (D8 and D9, logs 10 and 17). -/
def Obligations.IllegalWordsAreExactlyTheListedOnes : Prop :=
  ∀ (strict : Bool) (w : Word),
    decodeWord strict w = none ↔
      ((fieldKind w).toNat = 0x0 ∧ (fieldNNN w).toNat ≠ 0x0E0 ∧ (fieldNNN w).toNat ≠ 0x0EE) ∨
      ((fieldKind w).toNat = 0x8 ∧ (fieldN w).val ∈ [0x8, 0x9, 0xA, 0xB, 0xC, 0xD, 0xF]) ∨
      ((fieldKind w).toNat = 0xE ∧ (fieldNN w).toNat ≠ 0x9E ∧ (fieldNN w).toNat ≠ 0xA1) ∨
      ((fieldKind w).toNat = 0xF ∧ (fieldNN w).toNat ∉ [0x07, 0x0A, 0x15, 0x18, 0x1E, 0x29, 0x33, 0x55, 0x65]) ∨
      (strict = true ∧ ((fieldKind w).toNat = 0x5 ∨ (fieldKind w).toNat = 0x9) ∧ (fieldN w).val ≠ 0)

/-- Decode and encode agree, one way: every well-formed instruction is read back from its word and from its bytes, and an
ill-formed one is no instruction of the machine (30_encoding.md R75, R79). -/
def Obligations.DecodeReadsBackEveryEncodedInstruction : Prop :=
  ∀ (strict : Bool) (i : Instr) (rest : List Byte),
    (i.wellFormed strict = true →
      decodeWord strict (encode i) = some i ∧ decode strict (bytesOfWord (encode i) ++ rest) = .ok (i, rest)) ∧
    (i.wellFormed strict = false → decodeWord strict (encode i) = none)

/-- Decode and encode agree, the other way: a legal word is the word of the instruction it decodes to, so decoding drops
no bit (30_encoding.md R75, R78; the ignored fields are log 19). -/
def Obligations.EncodeGivesBackEveryLegalWord : Prop :=
  ∀ (strict : Bool) (w : Word) (i : Instr), decodeWord strict w = some i → encode i = w ∧ i.wellFormed strict = true

/-- 95_test_vectors.md 2.1 and 30_encoding.md R75: words the spec writes out, and what they stand for. -/
def Obligations.WordsOfTheSpecDecodeAsItSays : Prop :=
  decodeWord false 0x6005 = some (.load 0 5) ∧ decodeWord false 0x8014 = some (.addr 0 1) ∧
  decodeWord false 0x00E0 = some .cls ∧ decodeWord false 0xD7A3 = some (.draw 7 10 3) ∧
  decodeWord false 0xF265 = some (.read 2) ∧ decodeWord false 0xB123 = some (.jumpi 0x123) ∧
  decodeWord false 0x5121 = some (.seReg 1 2 1) ∧ decodeWord true 0x5121 = none ∧ decodeWord false 0x01E0 = none ∧
  decodeWord false 0xFFFF = none

/-- 30_encoding.md R81 (D28, log 22): the assembly line of an instruction stands for that instruction, and the only
instructions without a line are 5XYN and 9XYN with a low nibble other than 0. -/
def Obligations.AssemblyLinesStandForTheirInstructions : Prop :=
  ∀ i : Instr, (∀ l, disassemble i = some l → assemble l = some i) ∧
    (disassemble i = none ↔ ∃ x y n, n ≠ 0 ∧ (i = .seReg x y n ∨ i = .sneReg x y n))

/-! ### Control flow -/

/-- 40_control_flow.md R101: JUMP NNN. The bit pattern is log 11. -/
def Obligations.JumpGoesToItsAddress : Prop :=
  EncodedAs 0xF000 0x1000 (fun w => .jump (fieldNNN w)) ∧
  ∀ (nnn : Addr12) (s : State), ∃ t, exec (.jump nnn) s = .next t ∧ t.pc.toNat = nnn.toNat ∧ OnlyPc s t ∧
    (nnn.toNat = 0xFFF → s.halt = .running → step t = .fault (.memOutOfRange 0x1000))

/-- 40_control_flow.md R102: CALL NNN. The width of an entry is D5 (log 13), the bit pattern log 11. -/
def Obligations.CallPushesTheReturnAddress : Prop :=
  EncodedAs 0xF000 0x2000 (fun w => .call (fieldNNN w)) ∧
  ∀ (nnn : Addr12) (s : State),
    (s.sp.val < 16 →
      ∃ t, exec (.call nnn) s = .next t ∧ t.pc.toNat = nnn.toNat ∧ t.sp.val = s.sp.val + 1 ∧
        (∀ k : Fin 16, k.val = s.sp.val → t.stack[k] = s.pc) ∧
        (∀ k : Fin 16, k.val ≠ s.sp.val → t.stack[k] = s.stack[k]) ∧
        t = { s with pc := t.pc, sp := t.sp, stack := t.stack } ∧ ∀ a, t.memRead a = s.memRead a) ∧
    (s.sp.val = 16 → exec (.call nnn) s = .fault (.stackOverflow (s.pc - 2)))

/-- 40_control_flow.md R103: RET. The bit pattern is log 11. -/
def Obligations.RetPopsTheReturnAddress : Prop :=
  EncodedAs 0xFFFF 0x00EE (fun _ => .ret) ∧
  ∀ s : State,
    (∀ k : Fin 16, s.sp.val = k.val + 1 →
      ∃ t, exec .ret s = .next t ∧ t.pc = s.stack[k] ∧ t.sp.val = k.val ∧ t = { s with pc := t.pc, sp := t.sp } ∧
        ∀ a, t.memRead a = s.memRead a) ∧
    (s.sp.val = 0 → exec .ret s = .fault (.stackUnderflow (s.pc - 2)))

/-- 40_control_flow.md R100, R102, R103: a RET at the depth its CALL left comes back to the instruction after the CALL,
and SP is as before it, whatever ran between left the stack as it was. -/
def Obligations.RetUndoesCall : Prop :=
  ∀ (nnn : Addr12) (s : State), s.sp.val < 16 →
    ∃ t, exec (.call nnn) s = .next t ∧
      ∀ u : State, u.sp = t.sp → u.stack = t.stack → exec .ret u = .next { u with pc := s.pc, sp := s.sp }

/-- 40_control_flow.md R104: JUMPI NNN adds V0 and masks nothing (D4, log 13); a target above 0xFFE ends the session at
the next fetch. The bit pattern is log 11. -/
def Obligations.JumpiAddsV0 : Prop :=
  EncodedAs 0xF000 0xB000 (fun w => .jumpi (fieldNNN w)) ∧
  ∀ (nnn : Addr12) (s : State), ∃ t, exec (.jumpi nnn) s = .next t ∧
    t.pc.toNat = (s.getV 0).toNat + nnn.toNat ∧ OnlyPc s t ∧
    (0xFFE < t.pc.toNat → s.halt = .running → step t = .fault (.memOutOfRange (max t.pc.toNat 0x1000)))

/-- 40_control_flow.md R105, R106: SE VX,NN and SNE VX,NN skip 2 bytes exactly when VX is, or is not, NN. The bit patterns
are log 11. -/
def Obligations.ImmediateSkips : Prop :=
  EncodedAs 0xF000 0x3000 (fun w => .seImm (fieldX w) (fieldNN w)) ∧
  EncodedAs 0xF000 0x4000 (fun w => .sneImm (fieldX w) (fieldNN w)) ∧
  ∀ (x : Reg) (nn : Byte) (s : State),
    (∃ t, exec (.seImm x nn) s = .next t ∧ OnlyPc s t ∧ t.pc = if s.getV x = nn then s.pc + 2 else s.pc) ∧
    (∃ t, exec (.sneImm x nn) s = .next t ∧ OnlyPc s t ∧ t.pc = if s.getV x = nn then s.pc else s.pc + 2)

/-- 40_control_flow.md R107, R108: SE VX,VY and SNE VX,VY; N is ignored, or must be 0 under STRICT_5_9 (D9, log 10). The
bit patterns are log 11. -/
def Obligations.RegisterSkips : Prop :=
  (∀ strict w, w &&& mask59 strict = 0x5000 →
    decodeWord strict w = some (.seReg (fieldX w) (fieldY w) (fieldN w))) ∧
  (∀ strict w, w &&& mask59 strict = 0x9000 →
    decodeWord strict w = some (.sneReg (fieldX w) (fieldY w) (fieldN w))) ∧
  ∀ (x y : Reg) (n : Nibble) (s : State),
    (∃ t, exec (.seReg x y n) s = .next t ∧ OnlyPc s t ∧ t.pc = if s.getV x = s.getV y then s.pc + 2 else s.pc) ∧
    (∃ t, exec (.sneReg x y n) s = .next t ∧ OnlyPc s t ∧ t.pc = if s.getV x = s.getV y then s.pc else s.pc + 2)

/-! ### Immediate and register operations -/

/-- 41_load_logic.md R121: LOAD VX,NN. -/
def Obligations.LoadSetsTheRegister : Prop :=
  EncodedAs 0xF000 0x6000 (fun w => .load (fieldX w) (fieldNN w)) ∧
  ∀ (x : Reg) (nn : Byte) (s : State), ∃ t, exec (.load x nn) s = .next t ∧ t.getV x = nn ∧ KeepsOtherV x s t ∧ OnlyV s t

/-- 41_load_logic.md R122: ADD VX,NN adds mod 256 and leaves VF alone unless it is VX. The bit pattern is log 11. -/
def Obligations.AddWrapsWithoutFlag : Prop :=
  EncodedAs 0xF000 0x7000 (fun w => .add (fieldX w) (fieldNN w)) ∧
  ∀ (x : Reg) (nn : Byte) (s : State), ∃ t, exec (.add x nn) s = .next t ∧
    (t.getV x).toNat = ((s.getV x).toNat + nn.toNat) % 256 ∧ KeepsOtherV x s t ∧ OnlyV s t

/-- 41_load_logic.md R123 to R126: MOVE, OR, AND and XOR, bit by bit; VF is untouched unless it is VX. The bit patterns
are log 11. -/
def Obligations.MoveAndLogicWorkBitByBit : Prop :=
  EncodedAs 0xF00F 0x8000 (fun w => .move (fieldX w) (fieldY w)) ∧
  EncodedAs 0xF00F 0x8001 (fun w => .or (fieldX w) (fieldY w)) ∧
  EncodedAs 0xF00F 0x8002 (fun w => .and (fieldX w) (fieldY w)) ∧
  EncodedAs 0xF00F 0x8003 (fun w => .xor (fieldX w) (fieldY w)) ∧
  ∀ (x y : Reg) (s : State),
    (∃ t, exec (.move x y) s = .next t ∧ t.getV x = s.getV y ∧ KeepsOtherV x s t ∧ OnlyV s t) ∧
    (∃ t, exec (.or x y) s = .next t ∧ KeepsOtherV x s t ∧ OnlyV s t ∧
      ∀ b, (t.getV x).getLsbD b = ((s.getV x).getLsbD b || (s.getV y).getLsbD b)) ∧
    (∃ t, exec (.and x y) s = .next t ∧ KeepsOtherV x s t ∧ OnlyV s t ∧
      ∀ b, (t.getV x).getLsbD b = ((s.getV x).getLsbD b && (s.getV y).getLsbD b)) ∧
    (∃ t, exec (.xor x y) s = .next t ∧ KeepsOtherV x s t ∧ OnlyV s t ∧
      ∀ b, (t.getV x).getLsbD b = ((s.getV x).getLsbD b != (s.getV y).getLsbD b))

/-! ### Arithmetic with flags: the order of the two writes is VF_ORDER (D10, log 9) -/

/-- 42_arith_flags.md R130, R131: ADDR VX,VY, with VF as an operand too. -/
def Obligations.AddrAddsAndSetsCarry : Prop :=
  EncodedAs 0xF00F 0x8004 (fun w => .addr (fieldX w) (fieldY w)) ∧
  ∀ (x y : Reg) (s : State),
    let sum := (s.getV x).toNat + (s.getV y).toNat
    let flag := if 255 < sum then 1 else 0
    ∃ t, exec (.addr x y) s = .next t ∧ OnlyV s t ∧ (∀ z, z ≠ x → z ≠ 15 → t.getV z = s.getV z) ∧
      (x ≠ 15 → y ≠ 15 → (t.getV x).toNat = sum % 256 ∧ (t.getV 15).toNat = flag) ∧
      (s.params.vfOrder = .flagFirst →
        (x = 15 → y ≠ 15 → (t.getV 15).toNat = (flag + (s.getV y).toNat) % 256) ∧
        (x ≠ 15 → y = 15 → (t.getV x).toNat = ((s.getV x).toNat + flag) % 256 ∧ (t.getV 15).toNat = flag) ∧
        (x = 15 → y = 15 → (t.getV 15).toNat = flag + flag)) ∧
      (s.params.vfOrder = .flagLast → (x ≠ 15 → (t.getV x).toNat = sum % 256) ∧ (t.getV 15).toNat = flag)

/-- 42_arith_flags.md R130, R132: SUB VX,VY; the flag is 1 for no borrow, equality included. The bit pattern is log 11. -/
def Obligations.SubSubtractsAndSetsNoBorrow : Prop :=
  EncodedAs 0xF00F 0x8005 (fun w => .sub (fieldX w) (fieldY w)) ∧
  ∀ (x y : Reg) (s : State),
    let a := (s.getV x).toNat
    let b := (s.getV y).toNat
    let flag := if b ≤ a then 1 else 0
    ∃ t, exec (.sub x y) s = .next t ∧ OnlyV s t ∧ (∀ z, z ≠ x → z ≠ 15 → t.getV z = s.getV z) ∧
      (x ≠ 15 → y ≠ 15 → (t.getV x).toNat = (256 + a - b) % 256 ∧ (t.getV 15).toNat = flag) ∧
      (s.params.vfOrder = .flagFirst →
        (x = 15 → y ≠ 15 → (t.getV 15).toNat = (256 + flag - b) % 256) ∧
        (x ≠ 15 → y = 15 → (t.getV x).toNat = (256 + a - flag) % 256 ∧ (t.getV 15).toNat = flag) ∧
        (x = 15 → y = 15 → (t.getV 15).toNat = 0)) ∧
      (s.params.vfOrder = .flagLast → (x ≠ 15 → (t.getV x).toNat = (256 + a - b) % 256) ∧ (t.getV 15).toNat = flag)

/-- 42_arith_flags.md R130, R133: SUBN VX,VY is SUB with the operands swapped. The bit pattern is log 11. -/
def Obligations.SubnSubtractsTheOtherWay : Prop :=
  EncodedAs 0xF00F 0x8007 (fun w => .subn (fieldX w) (fieldY w)) ∧
  ∀ (x y : Reg) (s : State),
    let a := (s.getV x).toNat
    let b := (s.getV y).toNat
    let flag := if a ≤ b then 1 else 0
    ∃ t, exec (.subn x y) s = .next t ∧ OnlyV s t ∧ (∀ z, z ≠ x → z ≠ 15 → t.getV z = s.getV z) ∧
      (x ≠ 15 → y ≠ 15 → (t.getV x).toNat = (256 + b - a) % 256 ∧ (t.getV 15).toNat = flag) ∧
      (s.params.vfOrder = .flagFirst →
        (x = 15 → y ≠ 15 → (t.getV 15).toNat = (256 + b - flag) % 256) ∧
        (x ≠ 15 → y = 15 → (t.getV x).toNat = (256 + flag - a) % 256 ∧ (t.getV 15).toNat = flag) ∧
        (x = 15 → y = 15 → (t.getV 15).toNat = 0)) ∧
      (s.params.vfOrder = .flagLast → (x ≠ 15 → (t.getV x).toNat = (256 + b - a) % 256) ∧ (t.getV 15).toNat = flag)

/-- 42_arith_flags.md R130, R134, R135: SHR VX and SHL VX shift VX alone and put the bit shifted out into VF; Y is not
read. The bit patterns are log 11. -/
def Obligations.ShiftsMoveOneBitOut : Prop :=
  EncodedAs 0xF00F 0x8006 (fun w => .shr (fieldX w) (fieldY w)) ∧
  EncodedAs 0xF00F 0x800E (fun w => .shl (fieldX w) (fieldY w)) ∧
  ∀ (x y : Reg) (s : State),
    let a := (s.getV x).toNat
    (∃ t, exec (.shr x y) s = .next t ∧ OnlyV s t ∧ (∀ z, z ≠ x → z ≠ 15 → t.getV z = s.getV z) ∧
      (x ≠ 15 → (t.getV x).toNat = a / 2 ∧ (t.getV 15).toNat = a % 2) ∧
      (x = 15 → (t.getV 15).toNat = if s.params.vfOrder = .flagFirst then 0 else a % 2)) ∧
    (∃ t, exec (.shl x y) s = .next t ∧ OnlyV s t ∧ (∀ z, z ≠ x → z ≠ 15 → t.getV z = s.getV z) ∧
      (x ≠ 15 → (t.getV x).toNat = 2 * a % 256 ∧ (t.getV 15).toNat = a / 128) ∧
      (x = 15 → (t.getV 15).toNat = if s.params.vfOrder = .flagFirst then 2 * (a / 128) else a / 128))

/-! ### The index register and the memory blocks -/

/-- 43_index_memory.md R141, R143: LOADI NNN, and LDSPR VX for every value of VX. The bit patterns are log 11. -/
def Obligations.LoadiAndLdsprSetI : Prop :=
  EncodedAs 0xF000 0xA000 (fun w => .loadi (fieldNNN w)) ∧
  EncodedAs 0xF0FF 0xF029 (fun w => .ldspr (fieldX w)) ∧
  (∀ (nnn : Addr12) (s : State), ∃ t, exec (.loadi nnn) s = .next t ∧ t.i.toNat = nnn.toNat ∧ OnlyI s t) ∧
  (∀ (x : Reg) (s : State), ∃ t, exec (.ldspr x) s = .next t ∧ t.i.toNat = (s.getV x).toNat * 5 ∧ OnlyI s t)

/-- 43_index_memory.md R142: ADDI VX, mod 65536 (D4, log 13); VF is untouched. -/
def Obligations.AddiWrapsWithoutFlag : Prop :=
  EncodedAs 0xF0FF 0xF01E (fun w => .addi (fieldX w)) ∧
  ∀ (x : Reg) (s : State), ∃ t, exec (.addi x) s = .next t ∧
    t.i.toNat = (s.i.toNat + (s.getV x).toNat) % 65536 ∧ OnlyI s t

/-- 43_index_memory.md R140, R144: BCD VX stores the three digits at I, I+1 and I+2, or is fatal with the first address
out of range. The bit pattern is log 11; the check before the first write is D21 (log 14). -/
def Obligations.BcdStoresThreeDigits : Prop :=
  EncodedAs 0xF0FF 0xF033 (fun w => .bcd (fieldX w)) ∧
  ∀ (x : Reg) (s : State), s.mem.wf s.params = true →
    (s.i.toNat + 2 ≤ 0xFFF →
      ∃ t, exec (.bcd x) s = .next t ∧ t = { s with mem := t.mem } ∧
        (t.memRead s.i.toNat).toNat = (s.getV x).toNat / 100 ∧
        (t.memRead (s.i.toNat + 1)).toNat = (s.getV x).toNat / 10 % 10 ∧
        (t.memRead (s.i.toNat + 2)).toNat = (s.getV x).toNat % 10 ∧
        ∀ a, (a < s.i.toNat ∨ s.i.toNat + 2 < a) → t.memRead a = s.memRead a) ∧
    (0xFFF < s.i.toNat + 2 → exec (.bcd x) s = .fault (.memOutOfRange (max s.i.toNat 0x1000)))

/-- 43_index_memory.md R140, R145: STOR VX stores V0 to VX at I to I+X and leaves I past them, or is fatal with the first
address out of range. The bit pattern is log 11. -/
def Obligations.StorStoresTheBlock : Prop :=
  EncodedAs 0xF0FF 0xF055 (fun w => .stor (fieldX w)) ∧
  ∀ (x : Reg) (s : State), s.mem.wf s.params = true →
    (s.i.toNat + x.val ≤ 0xFFF →
      ∃ t, exec (.stor x) s = .next t ∧ t = { s with mem := t.mem, i := t.i } ∧ t.i.toNat = s.i.toNat + x.val + 1 ∧
        (∀ r : Reg, r.val ≤ x.val → t.memRead (s.i.toNat + r.val) = s.getV r) ∧
        ∀ a, (a < s.i.toNat ∨ s.i.toNat + x.val < a) → t.memRead a = s.memRead a) ∧
    (0xFFF < s.i.toNat + x.val → exec (.stor x) s = .fault (.memOutOfRange (max s.i.toNat 0x1000)))

/-- 43_index_memory.md R140, R146: READ VX loads V0 to VX from I to I+X and leaves I past them, or is fatal with the first
address out of range. The bit pattern is log 11. -/
def Obligations.ReadLoadsTheBlock : Prop :=
  EncodedAs 0xF0FF 0xF065 (fun w => .read (fieldX w)) ∧
  ∀ (x : Reg) (s : State),
    (s.i.toNat + x.val ≤ 0xFFF →
      ∃ t, exec (.read x) s = .next t ∧ t = { s with v := t.v, i := t.i } ∧ t.i.toNat = s.i.toNat + x.val + 1 ∧
        (∀ r : Reg, r.val ≤ x.val → t.getV r = s.memRead (s.i.toNat + r.val)) ∧
        (∀ r : Reg, x.val < r.val → t.getV r = s.getV r) ∧ ∀ a, t.memRead a = s.memRead a) ∧
    (0xFFF < s.i.toNat + x.val → exec (.read x) s = .fault (.memOutOfRange (max s.i.toNat 0x1000)))

/-- 20_memory.md R63, 70_reset_and_hazards.md R215: a fetch after a STOR sees the bytes it stored, wherever pc then
stands among them. -/
def Obligations.FetchSeesStoredBytes : Prop :=
  ∀ (x r r' : Reg) (s : State), s.mem.wf s.params = true → s.i.toNat + x.val ≤ 0xFFF → r'.val = r.val + 1 →
    r'.val ≤ x.val →
    ∃ t, exec (.stor x) s = .next t ∧
      ∀ u : State, u.mem = t.mem → u.params = t.params → u.pc.toNat = s.i.toNat + r.val →
        u.fetch = .ok (wordOfBytes (s.getV r) (s.getV r'))

/-! ### Display -/

/-- 44_display.md R151: CLS. -/
def Obligations.ClsClearsEveryPixel : Prop :=
  EncodedAs 0xFFFF 0x00E0 (fun _ => .cls) ∧
  ∀ s : State, ∃ t, exec .cls s = .next t ∧ (∀ x y, t.pixel x y = false) ∧ t = { s with fb := t.fb } ∧
    ∀ a, t.memRead a = s.memRead a

/-- 44_display.md R152, R153: DRAW VX,VY,N toggles exactly the pixels under the set bits, wrapped, and VF tells whether
one of them was on; the coordinates are those before VF is written (D11) and bit 7 is the left column (D12, log 15). -/
def Obligations.DrawTogglesTheCoveredPixels : Prop :=
  EncodedAs 0xF000 0xD000 (fun w => .draw (fieldX w) (fieldY w) (fieldN w)) ∧
  ∀ (x y : Reg) (n : Nibble) (s : State),
    (n.val = 0 ∨ s.i.toNat + n.val ≤ 0x1000 →
      ∃ t, exec (.draw x y n) s = .next t ∧ t = { s with v := t.v, fb := t.fb } ∧ KeepsOtherV 15 s t ∧
        (∀ px py, s.spriteCovers (s.getV x) (s.getV y) n.val px py → t.pixel px py = !s.pixel px py) ∧
        (∀ px py, ¬ s.spriteCovers (s.getV x) (s.getV y) n.val px py → t.pixel px py = s.pixel px py) ∧
        ((∃ px py, s.spriteCovers (s.getV x) (s.getV y) n.val px py ∧ s.pixel px py = true) → t.getV 15 = 1) ∧
        ((∀ px py, s.spriteCovers (s.getV x) (s.getV y) n.val px py → s.pixel px py = false) → t.getV 15 = 0) ∧
        ∀ a, t.memRead a = s.memRead a) ∧
    (n.val ≠ 0 → 0x1000 < s.i.toNat + n.val → exec (.draw x y n) s = .fault (.memOutOfRange (max s.i.toNat 0x1000)))

/-- 44_display.md R154(a), with 90_conflicts.md C6: a second DRAW of the same sprite at the same place restores the
framebuffer, and sets VF exactly when some pixel of the sprite was off before the first. -/
def Obligations.DrawTwiceRestoresTheFramebuffer : Prop :=
  ∀ (x y : Reg) (n : Nibble) (s : State), n.val = 0 ∨ s.i.toNat + n.val ≤ 0x1000 →
    ∃ t, exec (.draw x y n) s = .next t ∧
      ∀ u : State, u.fb = t.fb → u.i = s.i → (∀ a, u.memRead a = s.memRead a) → u.getV x = s.getV x →
        u.getV y = s.getV y →
        ∃ w, exec (.draw x y n) u = .next w ∧ w.fb = s.fb ∧
          (w.getV 15 = 1 ↔ ∃ px py, s.spriteCovers (s.getV x) (s.getV y) n.val px py ∧ s.pixel px py = false)

/-- 44_display.md R154(b): after CLS, any instructions that are not DRAW leave the framebuffer entirely off. -/
def Obligations.NothingButDrawLightsAPixel : Prop :=
  ∀ (is : List Instr) (s t : State), (∀ i ∈ is, ∀ x y n, i ≠ .draw x y n) → execAll (.cls :: is) s = .next t →
    ∀ x y, t.pixel x y = false

/-! ### Input, timers, randomness -/

/-- 45_input_timer.md R161, R162: SKPR and SKUP skip by the state of the key VX names; an index above 15 is fatal (D14,
log 16). The bit patterns are log 11. -/
def Obligations.KeySkips : Prop :=
  EncodedAs 0xF0FF 0xE09E (fun w => .skpr (fieldX w)) ∧ EncodedAs 0xF0FF 0xE0A1 (fun w => .skup (fieldX w)) ∧
  ∀ (x : Reg) (s : State),
    (∀ k : Fin 16, (s.getV x).toNat = k.val →
      (∃ t, exec (.skpr x) s = .next t ∧ OnlyPc s t ∧ t.pc = if s.key[k] = true then s.pc + 2 else s.pc) ∧
      (∃ t, exec (.skup x) s = .next t ∧ OnlyPc s t ∧ t.pc = if s.key[k] = true then s.pc else s.pc + 2)) ∧
    (15 < (s.getV x).toNat →
      exec (.skpr x) s = .fault (.keyIndexOutOfRange (s.getV x)) ∧
      exec (.skup x) s = .fault (.keyIndexOutOfRange (s.getV x)))

/-- 45_input_timer.md R163: KEYD VX waits for a press, captures a pressed key (the lowest one by default; D13, log 8),
waits for its release, and only then lets pc advance. The bit pattern is log 11. -/
def Obligations.KeydCapturesThenWaitsForTheRelease : Prop :=
  EncodedAs 0xF0FF 0xF00A (fun w => .keyd (fieldX w)) ∧
  ∀ (x : Reg) (s : State), ∃ t, exec (.keyd x) s = .next t ∧
    (s.kw = .idle → (∀ k : Fin 16, s.key[k] = false) → t = { s with pc := s.pc - 2 }) ∧
    (s.kw = .idle → (∃ k : Fin 16, s.key[k] = true) →
      ∃ k : Fin 16, s.key[k] = true ∧ (s.params.keydPick = .lowest → ∀ j : Fin 16, j < k → s.key[j] = false) ∧
        (t.getV x).toNat = k.val ∧ KeepsOtherV x s t ∧
        t = { s with v := t.v, kw := .captured k, pc := s.pc - 2 }) ∧
    (∀ k : Fin 16, s.kw = .captured k → s.key[k] = true → t = { s with pc := s.pc - 2 }) ∧
    (∀ k : Fin 16, s.kw = .captured k → s.key[k] = false → t = { s with kw := .idle })

/-- 45_input_timer.md R164, R165, R166: MOVED, LOADD and LOADS. That LOADS drives sound_enable at once, false for VX = 0
among it (10_state.md R31), is the choice of D16 and 90_conflicts.md C4 (log 21). The bit patterns are log 11. -/
def Obligations.TimerMoves : Prop :=
  EncodedAs 0xF0FF 0xF007 (fun w => .moved (fieldX w)) ∧ EncodedAs 0xF0FF 0xF015 (fun w => .loadd (fieldX w)) ∧
  EncodedAs 0xF0FF 0xF018 (fun w => .loads (fieldX w)) ∧
  ∀ (x : Reg) (s : State),
    (∃ t, exec (.moved x) s = .next t ∧ t.getV x = s.dt ∧ KeepsOtherV x s t ∧ OnlyV s t) ∧
    (∃ t, exec (.loadd x) s = .next t ∧ t.dt = s.getV x ∧ t = { s with dt := t.dt } ∧ ∀ a, t.memRead a = s.memRead a) ∧
    (∃ t, exec (.loads x) s = .next t ∧ t.st = s.getV x ∧ (t.soundEnable = true ↔ 0 < (s.getV x).toNat) ∧
      t = { s with st := t.st } ∧ ∀ a, t.memRead a = s.memRead a)

/-- 46_random.md R170: RAND VX,NN is the tick's byte AND NN, for every byte (D17, log 1). The bit pattern is log 11. -/
def Obligations.RandMasksTheDrawnByte : Prop :=
  EncodedAs 0xF000 0xC000 (fun w => .rand (fieldX w) (fieldNN w)) ∧
  ∀ (x : Reg) (nn : Byte) (s : State), ∃ t, exec (.rand x nn) s = .next t ∧ KeepsOtherV x s t ∧ OnlyV s t ∧
    (∀ b, (t.getV x).getLsbD b = (s.randByte.getLsbD b && nn.getLsbD b)) ∧
    (∀ inp rest, s.inputs = inp :: rest → s.beginTick.randByte = inp.randByte)

/-! ### Rules about the whole machine -/

/-- 60_exceptions.md R182, R183, R185, 70_reset_and_hazards.md R214: an instruction completes exactly where the one
condition it has holds, and elsewhere raises the fatal error of its kind (logs 3, 14 and 16). -/
def Obligations.InstructionsFailOnlyWhereTheSpecSays : Prop :=
  ∀ (i : Instr) (s : State),
    (s.mayExecute i ∧ ∃ t, exec i s = .next t) ∨
    (¬ s.mayExecute i ∧ ∃ r : Fault, exec i s = .fault r ∧
      ((∃ n, i = .call n) ∧ r = .stackOverflow (s.pc - 2) ∨ i = .ret ∧ r = .stackUnderflow (s.pc - 2) ∨
        (∃ x, (i = .skpr x ∨ i = .skup x) ∧ r = .keyIndexOutOfRange (s.getV x)) ∨
        ((∃ x, i = .bcd x ∨ i = .stor x ∨ i = .read x) ∨ ∃ x y n, i = .draw x y n) ∧
          r = .memOutOfRange (max s.i.toNat 0x1000)))

/-- 10_state.md R23, 41_load_logic.md R120: VF changes only under ADDR, SUB, SUBN, SHR, SHL and DRAW, or where it is the
register the instruction names as its destination (READ VF loads it as its last). -/
def Obligations.OnlyFlagInstructionsTouchVf : Prop :=
  ∀ (i : Instr) (s t : State), exec i s = .next t → t.getV 15 ≠ s.getV 15 →
    (∃ x y, i = .addr x y ∨ i = .sub x y ∨ i = .subn x y ∨ i = .shr x y ∨ i = .shl x y ∨ ∃ n, i = .draw x y n) ∨
    (∃ y nn, i = .load 15 nn ∨ i = .add 15 nn ∨ i = .rand 15 nn ∨ i = .move 15 y ∨ i = .or 15 y ∨ i = .and 15 y ∨
      i = .xor 15 y) ∨
    i = .moved 15 ∨ i = .keyd 15 ∨ i = .read 15

/-- 10_state.md R32: only DRAW and CLS write the framebuffer, and only DRAW reads it. -/
def Obligations.OnlyDrawAndClsTouchTheFramebuffer : Prop :=
  ∀ (i : Instr) (s : State) (fb : Frame), (∀ x y n, i ≠ .draw x y n) →
    exec i { s with fb := fb } = (if i = .cls then exec i s else onNext (fun t => { t with fb := fb }) (exec i s)) ∧
    (i ≠ .cls → ∀ t, exec i s = .next t → t.fb = s.fb)

/-- 10_state.md R34: only KEYD reads or writes the key-wait latch. -/
def Obligations.OnlyKeydTouchesTheLatch : Prop :=
  ∀ (i : Instr) (s : State) (kw : KeyWait), (∀ x, i ≠ .keyd x) →
    exec i { s with kw := kw } = onNext (fun t => { t with kw := kw }) (exec i s) ∧
    ∀ t, exec i s = .next t → t.kw = s.kw

/-- 10_state.md R33: no instruction writes the key-state table, and only SKPR, SKUP and KEYD read it. -/
def Obligations.KeyTableIsReadOnlyToTheCore : Prop :=
  ∀ (i : Instr) (s : State) (key : Vector Bool 16),
    (∀ t, exec i s = .next t → t.key = s.key) ∧
    ((∀ x, i ≠ .skpr x ∧ i ≠ .skup x ∧ i ≠ .keyd x) →
      exec i { s with key := key } = onNext (fun t => { t with key := key }) (exec i s))

/-- 10_state.md R29, R30: LOADD alone writes DT and MOVED alone reads it; LOADS alone writes ST and no instruction reads
it. -/
def Obligations.TimersAreTouchedOnlyByTheirInstructions : Prop :=
  ∀ (i : Instr) (s : State) (b : Byte),
    ((∀ x, i ≠ .loadd x) → ∀ t, exec i s = .next t → t.dt = s.dt) ∧
    ((∀ x, i ≠ .loadd x ∧ i ≠ .moved x) →
      exec i { s with dt := b } = onNext (fun t => { t with dt := b }) (exec i s)) ∧
    ((∀ x, i ≠ .loads x) → exec i { s with st := b } = onNext (fun t => { t with st := b }) (exec i s) ∧
      ∀ t, exec i s = .next t → t.st = s.st) ∧
    ((∃ x, i = .loads x) → exec i { s with st := b } = exec i s)

/-- 10_state.md R24: only LOADI, ADDI, LDSPR, STOR and READ write I, and only ADDI, BCD, STOR, READ and DRAW read it. -/
def Obligations.IndexRegisterUse : Prop :=
  ∀ (i : Instr) (s : State) (w : Word),
    ((∀ n x, i ≠ .loadi n ∧ i ≠ .addi x ∧ i ≠ .ldspr x ∧ i ≠ .stor x ∧ i ≠ .read x) →
      ∀ t, exec i s = .next t → t.i = s.i) ∧
    ((∀ x y n, i ≠ .addi x ∧ i ≠ .bcd x ∧ i ≠ .stor x ∧ i ≠ .read x ∧ i ≠ .draw x y n) →
      exec i { s with i := w } = exec i s ∨
      exec i { s with i := w } = onNext (fun t => { t with i := w }) (exec i s))

/-- 10_state.md R27, R28: no instruction but CALL and RET touches the stack or SP, and a stack entry at SP or above is
never read: two states that differ in nothing else take the same tick, and differ in nothing else after it. -/
def Obligations.DeadStackEntriesAreUnobservable : Prop :=
  (∀ (i : Instr) (s t : State), exec i s = .next t → (∀ n, i ≠ .call n) → i ≠ .ret → t.sp = s.sp ∧ t.stack = s.stack) ∧
  ∀ (s : State) (stack : Vector Word 16), (∀ k : Fin 16, k.val < s.sp.val → stack[k] = s.stack[k]) →
    (∀ t, step s = .next t →
      ∃ t', step { s with stack := stack } = .next t' ∧ t' = { t with stack := t'.stack } ∧
        ∀ k : Fin 16, k.val < t.sp.val → t'.stack[k] = t.stack[k]) ∧
    (∀ r, step s = .fault r → step { s with stack := stack } = .fault r)

/-- 46_random.md R170, 92_eei_decisions.md D17: no instruction but RAND can tell two draws of the random byte apart. -/
def Obligations.OnlyRandSeesTheRandomByte : Prop :=
  ∀ (i : Instr) (s : State) (b : Byte), (∀ x nn, i ≠ .rand x nn) →
    exec i { s with randByte := b } = onNext (fun t => { t with randByte := b }) (exec i s)

/-- 10_state.md R25: the values pc can hold after a tick of a running core that fetched at a: a + 2, a + 4, a, NNN,
V0 + NNN, or the popped entry, each by the instruction that may leave it (widths: D4, log 13). -/
def Obligations.PcAfterATick : Prop :=
  ∀ s t : State, step s = .next t →
    t.pc.toNat = s.pc.toNat + 2 ∨
    ∃ i, decodeWord s.params.strict59 (wordOfBytes (s.memRead s.pc.toNat) (s.memRead (s.pc.toNat + 1))) = some i ∧
      ((∃ x y n nn, (i = .seImm x nn ∨ i = .sneImm x nn ∨ i = .seReg x y n ∨ i = .sneReg x y n ∨ i = .skpr x ∨
          i = .skup x) ∧ t.pc.toNat = s.pc.toNat + 4) ∨
        (∃ x, i = .keyd x ∧ t.pc = s.pc) ∨
        (∃ nnn, (i = .jump nnn ∨ i = .call nnn) ∧ t.pc.toNat = nnn.toNat) ∨
        (∃ nnn, i = .jumpi nnn ∧ t.pc.toNat = (s.getV 0).toNat + nnn.toNat) ∨
        (∃ k : Fin 16, i = .ret ∧ s.sp.val = k.val + 1 ∧ t.pc = s.stack[k]))

/-- 20_memory.md R50, R56: memories in canonical form that read alike are the same list, so equal memories are equal data
(the form is the model's, log 6). -/
def Obligations.CanonicalMemoriesAreUnique : Prop :=
  ∀ (p : Params) (m m' : Memory), m.wf p = true → m'.wf p = true → (∀ a, m.read p a = m'.read p a) → m = m'

/-- The invariants hold at reset, for every choice of the parameters (10_state.md R40). -/
def Obligations.InvariantsHoldAtReset : Prop :=
  ∀ p : Params, (State.resetWith p).Inv ∧ (State.resetWith p).KeyWaitInv ∧ State.reset.Inv ∧ State.reset.KeyWaitInv

/-- 10_state.md R26, 20_memory.md R50: every tick keeps memory canonical and inside 0 to 0xFFF, pc at most 0x10FE (so that
pc never wraps), and the live stack entries at most 0x1000; so does every run. -/
def Obligations.EveryTickKeepsMemoryPcAndStackSound : Prop :=
  (∀ s t : State, s.Inv → step s = .next t → t.Inv) ∧
  ∀ (n : Nat) (s t : State), s.Inv → core.run n s = .next t → t.Inv

/-- 45_input_timer.md R163: while the core waits for a release, pc stays at the KEYD that captured the key, that word
does not change, and its register keeps the key: every tick keeps this. -/
def Obligations.EveryTickKeepsTheKeyWaitSound : Prop :=
  ∀ s t : State, s.KeyWaitInv → step s = .next t → t.KeyWaitInv
end

