-- ==== Sys2Proof/Laws/Decode.lean ====
section
/-! SUPPORT. The fields of an encoded word, and the two bytes of a word. -/

namespace Sys2Proof

section Encoded

variable (k : BitVec 4) (x y : Reg) (n : Nibble) (nn : Byte) (nnn : Addr12)

theorem encodeNNN_toNat : (encodeNNN k nnn).toNat = k.toNat * 4096 + nnn.toNat :=
  (BitVec.toNat_append k nnn).trans (by
    rw [Nat.shiftLeft_eq, Nat.mul_comm, ← Nat.two_pow_add_eq_or_of_lt nnn.isLt, Nat.mul_comm])

theorem encodeXNN_toNat : (encodeXNN k x nn).toNat = k.toNat * 4096 + x.val * 256 + nn.toNat :=
  (BitVec.toNat_append (k ++ BitVec.ofFin (w := 4) x) nn).trans (by
    rw [BitVec.toNat_append, Nat.shiftLeft_eq, Nat.shiftLeft_eq, Nat.mul_comm,
      ← Nat.two_pow_add_eq_or_of_lt nn.isLt, Nat.mul_comm k.toNat,
      ← Nat.two_pow_add_eq_or_of_lt (BitVec.ofFin (w := 4) x).isLt]
    change _ * (_ + x.val) + _ = _
    omega)

theorem encodeXYN_toNat : (encodeXYN k x y n).toNat = k.toNat * 4096 + x.val * 256 + y.val * 16 + n.val :=
  (BitVec.toNat_append (k ++ BitVec.ofFin (w := 4) x ++ BitVec.ofFin (w := 4) y) (BitVec.ofFin (w := 4) n)).trans (by
    rw [BitVec.toNat_append, BitVec.toNat_append, Nat.shiftLeft_eq, Nat.shiftLeft_eq, Nat.shiftLeft_eq, Nat.mul_comm,
      ← Nat.two_pow_add_eq_or_of_lt (BitVec.ofFin (w := 4) n).isLt, Nat.mul_comm (_ ||| _) (2 ^ 4),
      ← Nat.two_pow_add_eq_or_of_lt (BitVec.ofFin (w := 4) y).isLt, Nat.mul_comm k.toNat,
      ← Nat.two_pow_add_eq_or_of_lt (BitVec.ofFin (w := 4) x).isLt]
    change _ * (_ * (_ + x.val) + y.val) + n.val = _
    omega)

theorem fieldKind_toNat (w : Word) : (fieldKind w).toNat = w.toNat / 4096 := by
  have := w.isLt
  simp only [fieldKind, BitVec.extractLsb'_toNat, Nat.shiftRight_eq_div_pow]
  omega

theorem fieldX_val (w : Word) : (fieldX w).val = w.toNat / 256 % 16 := by
  change (w.extractLsb' 8 4).toNat = _
  simp only [BitVec.extractLsb'_toNat, Nat.shiftRight_eq_div_pow]

theorem fieldY_val (w : Word) : (fieldY w).val = w.toNat / 16 % 16 := by
  change (w.extractLsb' 4 4).toNat = _
  simp only [BitVec.extractLsb'_toNat, Nat.shiftRight_eq_div_pow]

theorem fieldN_val (w : Word) : (fieldN w).val = w.toNat % 16 := by
  change (w.extractLsb' 0 4).toNat = _
  simp only [BitVec.extractLsb'_toNat, Nat.shiftRight_zero]

theorem fieldNN_toNat (w : Word) : (fieldNN w).toNat = w.toNat % 256 := by
  simp only [fieldNN, BitVec.extractLsb'_toNat, Nat.shiftRight_zero]

theorem fieldNNN_toNat (w : Word) : (fieldNNN w).toNat = w.toNat % 4096 := by
  simp only [fieldNNN, BitVec.extractLsb'_toNat, Nat.shiftRight_zero]

@[simp] theorem fieldKind_encodeNNN : fieldKind (encodeNNN k nnn) = k :=
  BitVec.eq_of_toNat_eq (by rw [fieldKind_toNat, encodeNNN_toNat]; omega)
@[simp] theorem fieldNNN_encodeNNN : fieldNNN (encodeNNN k nnn) = nnn :=
  BitVec.eq_of_toNat_eq (by rw [fieldNNN_toNat, encodeNNN_toNat]; omega)

@[simp] theorem fieldKind_encodeXNN : fieldKind (encodeXNN k x nn) = k :=
  BitVec.eq_of_toNat_eq (by rw [fieldKind_toNat, encodeXNN_toNat]; omega)
@[simp] theorem fieldX_encodeXNN : fieldX (encodeXNN k x nn) = x :=
  Fin.ext (by rw [fieldX_val, encodeXNN_toNat]; omega)
@[simp] theorem fieldNN_encodeXNN : fieldNN (encodeXNN k x nn) = nn :=
  BitVec.eq_of_toNat_eq (by rw [fieldNN_toNat, encodeXNN_toNat]; omega)

@[simp] theorem fieldKind_encodeXYN : fieldKind (encodeXYN k x y n) = k :=
  BitVec.eq_of_toNat_eq (by rw [fieldKind_toNat, encodeXYN_toNat]; omega)
@[simp] theorem fieldX_encodeXYN : fieldX (encodeXYN k x y n) = x :=
  Fin.ext (by rw [fieldX_val, encodeXYN_toNat]; omega)
@[simp] theorem fieldY_encodeXYN : fieldY (encodeXYN k x y n) = y :=
  Fin.ext (by rw [fieldY_val, encodeXYN_toNat]; omega)
@[simp] theorem fieldN_encodeXYN : fieldN (encodeXYN k x y n) = n :=
  Fin.ext (by rw [fieldN_val, encodeXYN_toNat]; omega)

end Encoded

/-- A word is put together from its two bytes again (R51). -/
theorem bytesOfWord_word (w : Word) : wordOfBytes (w.extractLsb' 8 8) (w.extractLsb' 0 8) = w := by
  apply BitVec.eq_of_toNat_eq
  refine (BitVec.toNat_append _ _).trans ?_
  rw [Nat.shiftLeft_eq, Nat.mul_comm, ← Nat.two_pow_add_eq_or_of_lt (w.extractLsb' 0 8).isLt]
  have := w.isLt
  simp only [BitVec.extractLsb'_toNat, Nat.shiftRight_eq_div_pow]
  omega

/-- The word of two bytes, as a number (R51). -/
theorem wordOfBytes_toNat (hi lo : Byte) : (wordOfBytes hi lo).toNat = hi.toNat * 256 + lo.toNat :=
  (BitVec.toNat_append hi lo).trans (by
    rw [Nat.shiftLeft_eq, Nat.mul_comm, ← Nat.two_pow_add_eq_or_of_lt lo.isLt, Nat.mul_comm])

/-! ### The masks of the opcode map (R75) -/

/-- The low `n` bits of a word beside its top nibble, as a number. -/
theorem topAndLow_toNat (w : Word) (n : Nat) (hn : n ≤ 12) :
    ((w >>> 12) <<< 12 ||| zext16 (w.setWidth n)).toNat = w.toNat / 4096 * 4096 + w.toNat % 2 ^ n := by
  have hw := w.isLt
  have hp : 2 ^ n ≤ 2 ^ 12 := Nat.pow_le_pow_right (by omega) hn
  have hm : w.toNat % 2 ^ n < 2 ^ n := Nat.mod_lt _ (Nat.two_pow_pos n)
  have h1 : ((w >>> 12) <<< 12).toNat = 2 ^ 12 * (w.toNat / 4096) := by
    simp only [BitVec.toNat_shiftLeft, BitVec.toNat_ushiftRight, Nat.shiftRight_eq_div_pow, Nat.shiftLeft_eq]
    omega
  have h2 : (zext16 (w.setWidth n)).toNat = w.toNat % 2 ^ n := by
    rw [BitVec.toNat_setWidth, BitVec.toNat_setWidth, Nat.mod_eq_of_lt (by omega)]
  rw [BitVec.toNat_or, h1, h2, ← Nat.two_pow_add_eq_or_of_lt (by omega)]
  omega

theorem and_F000_toNat (w : Word) : (w &&& 0xF000#16).toNat = w.toNat / 4096 * 4096 := by
  have h : w &&& 0xF000#16 = (w >>> 12) <<< 12 ||| zext16 (w.setWidth 0) := by
    apply BitVec.eq_of_getLsbD_eq; intro i hi; interval_cases i <;> simp
  rw [h, topAndLow_toNat w 0 (by decide)]; omega

theorem and_F00F_toNat (w : Word) : (w &&& 0xF00F#16).toNat = w.toNat / 4096 * 4096 + w.toNat % 16 := by
  have h : w &&& 0xF00F#16 = (w >>> 12) <<< 12 ||| zext16 (w.setWidth 4) := by
    apply BitVec.eq_of_getLsbD_eq; intro i hi; interval_cases i <;> simp
  exact h ▸ topAndLow_toNat w 4 (by decide)

theorem and_F0FF_toNat (w : Word) : (w &&& 0xF0FF#16).toNat = w.toNat / 4096 * 4096 + w.toNat % 256 := by
  have h : w &&& 0xF0FF#16 = (w >>> 12) <<< 12 ||| zext16 (w.setWidth 8) := by
    apply BitVec.eq_of_getLsbD_eq; intro i hi; interval_cases i <;> simp
  exact h ▸ topAndLow_toNat w 8 (by decide)

theorem and_FFFF (w : Word) : w &&& 0xFFFF#16 = w := by
  apply BitVec.eq_of_getLsbD_eq; intro i hi; interval_cases i <;> simp

end Sys2Proof
end

