-- ==== Sys2Proof/Laws/State.lean ====
section
/-! SUPPORT. One lemma per field per update of the state, so that no later proof unfolds a record update. The updates of pc
are all `setPc`, and `beginTick` is `takeInput` and then `timerPhase`. -/

namespace Sys2Proof.Machine

variable (s : State)

@[simp] theorem setV_mem (x : Reg) (b : Byte) : (s.setV x b).mem = s.mem := rfl
@[simp] theorem setV_v (x : Reg) (b : Byte) : (s.setV x b).v = s.v.set x b := rfl
@[simp] theorem setV_i (x : Reg) (b : Byte) : (s.setV x b).i = s.i := rfl
@[simp] theorem setV_pc (x : Reg) (b : Byte) : (s.setV x b).pc = s.pc := rfl
@[simp] theorem setV_sp (x : Reg) (b : Byte) : (s.setV x b).sp = s.sp := rfl
@[simp] theorem setV_stack (x : Reg) (b : Byte) : (s.setV x b).stack = s.stack := rfl
@[simp] theorem setV_dt (x : Reg) (b : Byte) : (s.setV x b).dt = s.dt := rfl
@[simp] theorem setV_st (x : Reg) (b : Byte) : (s.setV x b).st = s.st := rfl
@[simp] theorem setV_fb (x : Reg) (b : Byte) : (s.setV x b).fb = s.fb := rfl
@[simp] theorem setV_key (x : Reg) (b : Byte) : (s.setV x b).key = s.key := rfl
@[simp] theorem setV_kw (x : Reg) (b : Byte) : (s.setV x b).kw = s.kw := rfl
@[simp] theorem setV_halt (x : Reg) (b : Byte) : (s.setV x b).halt = s.halt := rfl
@[simp] theorem setV_randByte (x : Reg) (b : Byte) : (s.setV x b).randByte = s.randByte := rfl
@[simp] theorem setV_diag (x : Reg) (b : Byte) : (s.setV x b).diag = s.diag := rfl
@[simp] theorem setV_inputs (x : Reg) (b : Byte) : (s.setV x b).inputs = s.inputs := rfl
@[simp] theorem setV_tickNo (x : Reg) (b : Byte) : (s.setV x b).tickNo = s.tickNo := rfl
@[simp] theorem setV_params (x : Reg) (b : Byte) : (s.setV x b).params = s.params := rfl

@[simp] theorem setPc_mem (w : Word) : (s.setPc w).mem = s.mem := rfl
@[simp] theorem setPc_v (w : Word) : (s.setPc w).v = s.v := rfl
@[simp] theorem setPc_i (w : Word) : (s.setPc w).i = s.i := rfl
@[simp] theorem setPc_pc (w : Word) : (s.setPc w).pc = w := rfl
@[simp] theorem setPc_sp (w : Word) : (s.setPc w).sp = s.sp := rfl
@[simp] theorem setPc_stack (w : Word) : (s.setPc w).stack = s.stack := rfl
@[simp] theorem setPc_dt (w : Word) : (s.setPc w).dt = s.dt := rfl
@[simp] theorem setPc_st (w : Word) : (s.setPc w).st = s.st := rfl
@[simp] theorem setPc_fb (w : Word) : (s.setPc w).fb = s.fb := rfl
@[simp] theorem setPc_key (w : Word) : (s.setPc w).key = s.key := rfl
@[simp] theorem setPc_kw (w : Word) : (s.setPc w).kw = s.kw := rfl
@[simp] theorem setPc_halt (w : Word) : (s.setPc w).halt = s.halt := rfl
@[simp] theorem setPc_randByte (w : Word) : (s.setPc w).randByte = s.randByte := rfl
@[simp] theorem setPc_diag (w : Word) : (s.setPc w).diag = s.diag := rfl
@[simp] theorem setPc_inputs (w : Word) : (s.setPc w).inputs = s.inputs := rfl
@[simp] theorem setPc_tickNo (w : Word) : (s.setPc w).tickNo = s.tickNo := rfl
@[simp] theorem setPc_params (w : Word) : (s.setPc w).params = s.params := rfl

@[simp] theorem setI_mem (w : Word) : (s.setI w).mem = s.mem := rfl
@[simp] theorem setI_v (w : Word) : (s.setI w).v = s.v := rfl
@[simp] theorem setI_i (w : Word) : (s.setI w).i = w := rfl
@[simp] theorem setI_pc (w : Word) : (s.setI w).pc = s.pc := rfl
@[simp] theorem setI_sp (w : Word) : (s.setI w).sp = s.sp := rfl
@[simp] theorem setI_stack (w : Word) : (s.setI w).stack = s.stack := rfl
@[simp] theorem setI_dt (w : Word) : (s.setI w).dt = s.dt := rfl
@[simp] theorem setI_st (w : Word) : (s.setI w).st = s.st := rfl
@[simp] theorem setI_fb (w : Word) : (s.setI w).fb = s.fb := rfl
@[simp] theorem setI_key (w : Word) : (s.setI w).key = s.key := rfl
@[simp] theorem setI_kw (w : Word) : (s.setI w).kw = s.kw := rfl
@[simp] theorem setI_halt (w : Word) : (s.setI w).halt = s.halt := rfl
@[simp] theorem setI_randByte (w : Word) : (s.setI w).randByte = s.randByte := rfl
@[simp] theorem setI_diag (w : Word) : (s.setI w).diag = s.diag := rfl
@[simp] theorem setI_inputs (w : Word) : (s.setI w).inputs = s.inputs := rfl
@[simp] theorem setI_tickNo (w : Word) : (s.setI w).tickNo = s.tickNo := rfl
@[simp] theorem setI_params (w : Word) : (s.setI w).params = s.params := rfl

@[simp] theorem memWrite_mem (a : Nat) (b : Byte) : (s.memWrite a b).mem = s.mem.write s.params a b := rfl
@[simp] theorem memWrite_v (a : Nat) (b : Byte) : (s.memWrite a b).v = s.v := rfl
@[simp] theorem memWrite_i (a : Nat) (b : Byte) : (s.memWrite a b).i = s.i := rfl
@[simp] theorem memWrite_pc (a : Nat) (b : Byte) : (s.memWrite a b).pc = s.pc := rfl
@[simp] theorem memWrite_sp (a : Nat) (b : Byte) : (s.memWrite a b).sp = s.sp := rfl
@[simp] theorem memWrite_stack (a : Nat) (b : Byte) : (s.memWrite a b).stack = s.stack := rfl
@[simp] theorem memWrite_dt (a : Nat) (b : Byte) : (s.memWrite a b).dt = s.dt := rfl
@[simp] theorem memWrite_st (a : Nat) (b : Byte) : (s.memWrite a b).st = s.st := rfl
@[simp] theorem memWrite_fb (a : Nat) (b : Byte) : (s.memWrite a b).fb = s.fb := rfl
@[simp] theorem memWrite_key (a : Nat) (b : Byte) : (s.memWrite a b).key = s.key := rfl
@[simp] theorem memWrite_kw (a : Nat) (b : Byte) : (s.memWrite a b).kw = s.kw := rfl
@[simp] theorem memWrite_halt (a : Nat) (b : Byte) : (s.memWrite a b).halt = s.halt := rfl
@[simp] theorem memWrite_randByte (a : Nat) (b : Byte) : (s.memWrite a b).randByte = s.randByte := rfl
@[simp] theorem memWrite_diag (a : Nat) (b : Byte) : (s.memWrite a b).diag = s.diag := rfl
@[simp] theorem memWrite_inputs (a : Nat) (b : Byte) : (s.memWrite a b).inputs = s.inputs := rfl
@[simp] theorem memWrite_tickNo (a : Nat) (b : Byte) : (s.memWrite a b).tickNo = s.tickNo := rfl
@[simp] theorem memWrite_params (a : Nat) (b : Byte) : (s.memWrite a b).params = s.params := rfl

@[simp] theorem halted_mem (r : Fault) : (s.halted r).mem = s.mem := rfl
@[simp] theorem halted_v (r : Fault) : (s.halted r).v = s.v := rfl
@[simp] theorem halted_i (r : Fault) : (s.halted r).i = s.i := rfl
@[simp] theorem halted_pc (r : Fault) : (s.halted r).pc = s.pc := rfl
@[simp] theorem halted_sp (r : Fault) : (s.halted r).sp = s.sp := rfl
@[simp] theorem halted_stack (r : Fault) : (s.halted r).stack = s.stack := rfl
@[simp] theorem halted_dt (r : Fault) : (s.halted r).dt = s.dt := rfl
@[simp] theorem halted_st (r : Fault) : (s.halted r).st = s.st := rfl
@[simp] theorem halted_fb (r : Fault) : (s.halted r).fb = s.fb := rfl
@[simp] theorem halted_key (r : Fault) : (s.halted r).key = s.key := rfl
@[simp] theorem halted_kw (r : Fault) : (s.halted r).kw = s.kw := rfl
@[simp] theorem halted_halt (r : Fault) : (s.halted r).halt = .halted r := rfl
@[simp] theorem halted_randByte (r : Fault) : (s.halted r).randByte = s.randByte := rfl
@[simp] theorem halted_diag (r : Fault) : (s.halted r).diag = s.diag := rfl
@[simp] theorem halted_inputs (r : Fault) : (s.halted r).inputs = s.inputs := rfl
@[simp] theorem halted_tickNo (r : Fault) : (s.halted r).tickNo = s.tickNo := rfl
@[simp] theorem halted_params (r : Fault) : (s.halted r).params = s.params := rfl

@[simp] theorem reportIllegal_mem (w a : Word) : (s.reportIllegal w a).mem = s.mem := rfl
@[simp] theorem reportIllegal_v (w a : Word) : (s.reportIllegal w a).v = s.v := rfl
@[simp] theorem reportIllegal_i (w a : Word) : (s.reportIllegal w a).i = s.i := rfl
@[simp] theorem reportIllegal_pc (w a : Word) : (s.reportIllegal w a).pc = s.pc := rfl
@[simp] theorem reportIllegal_sp (w a : Word) : (s.reportIllegal w a).sp = s.sp := rfl
@[simp] theorem reportIllegal_stack (w a : Word) : (s.reportIllegal w a).stack = s.stack := rfl
@[simp] theorem reportIllegal_dt (w a : Word) : (s.reportIllegal w a).dt = s.dt := rfl
@[simp] theorem reportIllegal_st (w a : Word) : (s.reportIllegal w a).st = s.st := rfl
@[simp] theorem reportIllegal_fb (w a : Word) : (s.reportIllegal w a).fb = s.fb := rfl
@[simp] theorem reportIllegal_key (w a : Word) : (s.reportIllegal w a).key = s.key := rfl
@[simp] theorem reportIllegal_kw (w a : Word) : (s.reportIllegal w a).kw = s.kw := rfl
@[simp] theorem reportIllegal_halt (w a : Word) : (s.reportIllegal w a).halt = s.halt := rfl
@[simp] theorem reportIllegal_randByte (w a : Word) : (s.reportIllegal w a).randByte = s.randByte := rfl
@[simp] theorem reportIllegal_diag (w a : Word) : (s.reportIllegal w a).diag = some ⟨w, a⟩ := rfl
@[simp] theorem reportIllegal_inputs (w a : Word) : (s.reportIllegal w a).inputs = s.inputs := rfl
@[simp] theorem reportIllegal_tickNo (w a : Word) : (s.reportIllegal w a).tickNo = s.tickNo := rfl
@[simp] theorem reportIllegal_params (w a : Word) : (s.reportIllegal w a).params = s.params := rfl

@[simp] theorem timerPhase_mem (due : Bool) : (s.timerPhase due).mem = s.mem := rfl
@[simp] theorem timerPhase_v (due : Bool) : (s.timerPhase due).v = s.v := rfl
@[simp] theorem timerPhase_i (due : Bool) : (s.timerPhase due).i = s.i := rfl
@[simp] theorem timerPhase_pc (due : Bool) : (s.timerPhase due).pc = s.pc := rfl
@[simp] theorem timerPhase_sp (due : Bool) : (s.timerPhase due).sp = s.sp := rfl
@[simp] theorem timerPhase_stack (due : Bool) : (s.timerPhase due).stack = s.stack := rfl
@[simp] theorem timerPhase_dt (due : Bool) : (s.timerPhase due).dt = countDown due s.dt := rfl
@[simp] theorem timerPhase_st (due : Bool) : (s.timerPhase due).st = countDown due s.st := rfl
@[simp] theorem timerPhase_fb (due : Bool) : (s.timerPhase due).fb = s.fb := rfl
@[simp] theorem timerPhase_key (due : Bool) : (s.timerPhase due).key = s.key := rfl
@[simp] theorem timerPhase_kw (due : Bool) : (s.timerPhase due).kw = s.kw := rfl
@[simp] theorem timerPhase_halt (due : Bool) : (s.timerPhase due).halt = s.halt := rfl
@[simp] theorem timerPhase_randByte (due : Bool) : (s.timerPhase due).randByte = s.randByte := rfl
@[simp] theorem timerPhase_diag (due : Bool) : (s.timerPhase due).diag = s.diag := rfl
@[simp] theorem timerPhase_inputs (due : Bool) : (s.timerPhase due).inputs = s.inputs := rfl
@[simp] theorem timerPhase_tickNo (due : Bool) : (s.timerPhase due).tickNo = s.tickNo := rfl
@[simp] theorem timerPhase_params (due : Bool) : (s.timerPhase due).params = s.params := rfl

@[simp] theorem takeInput_mem : s.takeInput.mem = s.mem := rfl
@[simp] theorem takeInput_v : s.takeInput.v = s.v := rfl
@[simp] theorem takeInput_i : s.takeInput.i = s.i := rfl
@[simp] theorem takeInput_pc : s.takeInput.pc = s.pc := rfl
@[simp] theorem takeInput_sp : s.takeInput.sp = s.sp := rfl
@[simp] theorem takeInput_stack : s.takeInput.stack = s.stack := rfl
@[simp] theorem takeInput_dt : s.takeInput.dt = s.dt := rfl
@[simp] theorem takeInput_st : s.takeInput.st = s.st := rfl
@[simp] theorem takeInput_fb : s.takeInput.fb = s.fb := rfl
@[simp] theorem takeInput_key : s.takeInput.key = keyEvents s.key s.nextInput.events := rfl
@[simp] theorem takeInput_kw : s.takeInput.kw = s.kw := rfl
@[simp] theorem takeInput_halt : s.takeInput.halt = s.halt := rfl
@[simp] theorem takeInput_randByte : s.takeInput.randByte = s.nextInput.randByte := rfl
@[simp] theorem takeInput_diag : s.takeInput.diag = none := rfl
@[simp] theorem takeInput_inputs : s.takeInput.inputs = s.inputs.tail := rfl
@[simp] theorem takeInput_tickNo : s.takeInput.tickNo = s.tickNo + 1 := rfl
@[simp] theorem takeInput_params : s.takeInput.params = s.params := rfl

@[simp] theorem advancePc_eq : s.advancePc = s.setPc (s.pc + 2) := rfl
@[simp] theorem rewindPc_eq : s.rewindPc = s.setPc (s.pc - 2) := rfl
@[simp] theorem skipIf_eq (c : Bool) : s.skipIf c = s.setPc (if c then s.pc + 2 else s.pc) := rfl
theorem beginTick_eq : s.beginTick = s.takeInput.timerPhase s.nextInput.timerDue := rfl

@[simp] theorem beginTick_mem : s.beginTick.mem = s.mem := rfl
@[simp] theorem beginTick_v : s.beginTick.v = s.v := rfl
@[simp] theorem beginTick_i : s.beginTick.i = s.i := rfl
@[simp] theorem beginTick_pc : s.beginTick.pc = s.pc := rfl
@[simp] theorem beginTick_sp : s.beginTick.sp = s.sp := rfl
@[simp] theorem beginTick_stack : s.beginTick.stack = s.stack := rfl
@[simp] theorem beginTick_dt : s.beginTick.dt = countDown s.nextInput.timerDue s.dt := rfl
@[simp] theorem beginTick_st : s.beginTick.st = countDown s.nextInput.timerDue s.st := rfl
@[simp] theorem beginTick_fb : s.beginTick.fb = s.fb := rfl
@[simp] theorem beginTick_key : s.beginTick.key = keyEvents s.key s.nextInput.events := rfl
@[simp] theorem beginTick_kw : s.beginTick.kw = s.kw := rfl
@[simp] theorem beginTick_halt : s.beginTick.halt = s.halt := rfl
@[simp] theorem beginTick_randByte : s.beginTick.randByte = s.nextInput.randByte := rfl
@[simp] theorem beginTick_diag : s.beginTick.diag = none := rfl
@[simp] theorem beginTick_inputs : s.beginTick.inputs = s.inputs.tail := rfl
@[simp] theorem beginTick_tickNo : s.beginTick.tickNo = s.tickNo + 1 := rfl
@[simp] theorem beginTick_params : s.beginTick.params = s.params := rfl

end Sys2Proof.Machine
end

