-- ==== Sys2Proof/Laws/Memory.lean ====
section
/-! SUPPORT. The laws of memory: a read after a write, and the canonical form, which every memory operation keeps. -/

namespace Sys2Proof.Machine

open Sys2Proof.Config

variable {p : Params} {m : Memory}

/-- Below its first address a canonical memory reads as unlisted. -/
theorem Memory.read_of_lt {lo a : Nat} (h : Memory.wfFrom p lo m = true) (ha : a < lo) : m.read p a = resetByte p a := by
  induction m generalizing lo with
  | nil => rfl
  | cons c m ih =>
    obtain ⟨b, w⟩ := c
    simp only [Memory.wfFrom, Bool.and_eq_true, decide_eq_true_eq] at h
    rw [Memory.read, if_neg (by omega)]
    exact ih h.2 (by omega)

theorem Memory.wfFrom_mono {lo lo' : Nat} (h : Memory.wfFrom p lo m = true) (hl : lo' ≤ lo) :
    Memory.wfFrom p lo' m = true := by
  cases m with
  | nil => rfl
  | cons c m =>
    simp only [Memory.wfFrom, Bool.and_eq_true, decide_eq_true_eq] at h ⊢
    exact ⟨⟨⟨by omega, h.1.1.2⟩, h.1.2⟩, h.2⟩

/-- A read after a write, from address `lo` on. -/
theorem Memory.read_write_from {lo a b : Nat} {v : Byte} (h : Memory.wfFrom p lo m = true) :
    (m.write p a v).read p b = if b = a then v else m.read p b := by
  induction m generalizing lo with
  | nil =>
    by_cases hv : v = resetByte p a <;> by_cases hb : b = a <;> simp [Memory.write, Memory.read, hv, hb]
  | cons c m ih =>
    obtain ⟨k, w⟩ := c
    simp only [Memory.wfFrom, Bool.and_eq_true, decide_eq_true_eq] at h
    have hk : ∀ x, x ≤ k → Memory.read p m x = resetByte p x := fun x hx => Memory.read_of_lt h.2 (by omega)
    by_cases hlt : a < k
    · by_cases hv : v = resetByte p a
      · by_cases hb : b = a
        · subst hb
          simp [Memory.write, Memory.read, hlt, hv, hk b (by omega), show b ≠ k by omega]
        · simp [Memory.write, hlt, hv, hb]
      · simp [Memory.write, Memory.read, hlt, hv]
    · by_cases heq : a = k
      · subst heq
        by_cases hv : v = resetByte p a
        · by_cases hb : b = a
          · subst hb; simp [Memory.write, hv, hk b (by omega)]
          · simp [Memory.write, Memory.read, hv, hb]
        · by_cases hb : b = a <;> simp [Memory.write, Memory.read, hv, hb]
      · by_cases hb : b = k
        · have : b ≠ a := by omega
          simp [Memory.write, Memory.read, hlt, heq, hb, Ne.symm heq]
        · simp [Memory.write, Memory.read, hlt, heq, hb, ih h.2]

/-- A read after a write (20_memory.md R56): the byte written, and every other byte as before. -/
theorem Memory.read_write (h : m.wf p = true) (a b : Nat) (v : Byte) :
    (m.write p a v).read p b = if b = a then v else m.read p b := Memory.read_write_from h

theorem Memory.wfFrom_write {lo a : Nat} {v : Byte} (h : Memory.wfFrom p lo m = true) (hl : lo ≤ a) (ha : a < memSize) :
    Memory.wfFrom p lo (m.write p a v) = true := by
  induction m generalizing lo with
  | nil => by_cases hv : v = resetByte p a <;> simp [Memory.write, Memory.wfFrom, hv, hl, ha]
  | cons c m ih =>
    obtain ⟨k, w⟩ := c
    have h0 := h
    simp only [Memory.wfFrom, Bool.and_eq_true, decide_eq_true_eq] at h
    by_cases hlt : a < k
    · by_cases hv : v = resetByte p a
      · simpa [Memory.write, hlt, hv] using h0
      · simp [Memory.write, Memory.wfFrom, hlt, hv, hl, ha, h.1.1.2, h.1.2, h.2, show a + 1 ≤ k by omega]
    · by_cases heq : a = k
      · subst heq
        by_cases hv : v = resetByte p a
        · simpa [Memory.write, hv] using Memory.wfFrom_mono h.2 (by omega)
        · simp [Memory.write, Memory.wfFrom, hv, hl, ha, h.2]
      · simp [Memory.write, Memory.wfFrom, hlt, heq, h.1.1.1, h.1.1.2, h.1.2, ih h.2 (by omega)]

/-- A write inside memory keeps the canonical form. -/
theorem Memory.wf_write (h : m.wf p = true) {a : Nat} (ha : a < memSize) (v : Byte) : (m.write p a v).wf p = true :=
  Memory.wfFrom_write h (Nat.zero_le a) ha

/-- Reset memory is in canonical form. -/
theorem Memory.wf_nil : Memory.wf p [] = true := rfl

/-! ### The same of State -/

variable (s : State)

theorem memRead_memWrite (h : s.mem.wf s.params = true) (a b : Nat) (v : Byte) :
    (s.memWrite a v).memRead b = if b = a then v else s.memRead b := Memory.read_write h a b v

@[simp] theorem memRead_setV (x : Reg) (b : Byte) (a : Nat) : (s.setV x b).memRead a = s.memRead a := rfl
@[simp] theorem memRead_setI (w : Word) (a : Nat) : (s.setI w).memRead a = s.memRead a := rfl
@[simp] theorem memRead_setPc (w : Word) (a : Nat) : (s.setPc w).memRead a = s.memRead a := rfl
@[simp] theorem memRead_beginTick (a : Nat) : s.beginTick.memRead a = s.memRead a := rfl

/-- Storing consecutive bytes changes memory alone. -/
theorem memWriteBytes_frame (a : Nat) (bs : List Byte) :
    s.memWriteBytes a bs = { s with mem := (s.memWriteBytes a bs).mem } := by
  induction bs generalizing s a with
  | nil => rfl
  | cons b bs ih => exact ih (s.memWrite a b) (a + 1)

/-- Storing consecutive bytes inside memory keeps the canonical form. -/
theorem memWriteBytes_wf (a : Nat) (bs : List Byte) (h : s.mem.wf s.params = true) (ha : a + bs.length ≤ memSize) :
    (s.memWriteBytes a bs).mem.wf s.params = true := by
  induction bs generalizing s a with
  | nil => exact h
  | cons b bs ih =>
    simp only [List.length_cons] at ha
    exact ih (s.memWrite a b) (a + 1) (Memory.wf_write h (by omega) b) (by omega)

/-- Reading after storing consecutive bytes: the bytes stored, and every other byte as before. -/
theorem memRead_memWriteBytes (a b : Nat) (bs : List Byte) (h : s.mem.wf s.params = true) (ha : a + bs.length ≤ memSize) :
    (s.memWriteBytes a bs).memRead b =
      if h : a ≤ b ∧ b < a + bs.length then bs[b - a]'(by omega) else s.memRead b := by
  induction bs generalizing s a with
  | nil => simp [State.memWriteBytes, show ¬ (a ≤ b ∧ b < a) by omega]
  | cons c bs ih =>
    simp only [List.length_cons] at ha
    rw [State.memWriteBytes, ih (s.memWrite a c) (a + 1) (Memory.wf_write h (by omega) c) (by omega)]
    by_cases hb : b = a
    · subst hb
      simp [memRead_memWrite _ h]
    · by_cases hr : a + 1 ≤ b ∧ b < a + 1 + bs.length
      · have e : b - a = (b - (a + 1)) + 1 := by omega
        simp [hr, show a ≤ b ∧ b < a + (bs.length + 1) by omega, e]
      · rw [dif_neg hr, memRead_memWrite _ h, if_neg hb, dif_neg (by simp only [List.length_cons]; omega)]

end Sys2Proof.Machine
end

