-- ==== Sys2Proof/Laws/Ops.lean ====
section
/-! SUPPORT. One lemma for each shared operation that says everything it can do. -/

namespace Sys2Proof.Machine

open Sys2Proof.Config

variable (s : State)

/-! ### Registers -/

/-- A read after a register write. -/
theorem getV_setV (x y : Reg) (b : Byte) : (s.setV x b).getV y = if y = x then b else s.getV y := by
  by_cases h : y = x
  · subst h; simp [State.getV, State.setV]
  · have : x.val ≠ y.val := fun e => h (Fin.ext e.symm)
    simp [State.getV, State.setV, this, h]

@[simp] theorem getV_setV_same (x : Reg) (b : Byte) : (s.setV x b).getV x = b := by simp [getV_setV]
@[simp] theorem getV_setPc (w : Word) (y : Reg) : (s.setPc w).getV y = s.getV y := rfl
@[simp] theorem getV_setI (w : Word) (y : Reg) : (s.setI w).getV y = s.getV y := rfl
@[simp] theorem getV_memWrite (a : Nat) (b : Byte) (y : Reg) : (s.memWrite a b).getV y = s.getV y := rfl
@[simp] theorem getV_beginTick (y : Reg) : s.beginTick.getV y = s.getV y := rfl

/-- Two register files that read alike are equal. -/
theorem v_ext {a b : Vector Byte 16} (h : ∀ y : Reg, a[y] = b[y]) : a = b := by
  apply Vector.ext
  intro k hk
  exact h ⟨k, hk⟩

/-! ### The range check -/

/-- No byte of the range is out of memory exactly when the range is empty or ends within it. -/
theorem firstOutOfRange_none {base n : Nat} : firstOutOfRange base n = none ↔ n = 0 ∨ base + n ≤ memSize := by
  unfold firstOutOfRange
  split
  · simp [*]
  · split
    · simp only [reduceCtorEq, false_iff]; omega
    · split
      · simp only [reduceCtorEq, false_iff]; omega
      · simp only [true_iff]; omega

/-- The first byte address out of range: the base itself, or 0x1000 (R140). -/
theorem firstOutOfRange_some {base n a : Nat} (h : firstOutOfRange base n = some a) :
    n ≠ 0 ∧ memSize < base + n ∧ a = max base memSize := by
  unfold firstOutOfRange at h
  split at h
  · cases h
  · split at h
    · cases h; omega
    · split at h
      · cases h; omega
      · cases h

/-- A range-checked effect: it happens when the range is in memory, else the fatal error is raised. -/
theorem checkedRange_cases (base n : Nat) (t : State) :
    ((n = 0 ∨ base + n ≤ memSize) ∧ checkedRange base n t = .next t) ∨
    (n ≠ 0 ∧ memSize < base + n ∧ checkedRange base n t = .fault (.memOutOfRange (max base memSize))) := by
  unfold checkedRange
  cases h : firstOutOfRange base n with
  | none => exact .inl ⟨firstOutOfRange_none.1 h, rfl⟩
  | some a =>
    obtain ⟨h1, h2, rfl⟩ := firstOutOfRange_some h
    exact .inr ⟨h1, h2, rfl⟩

/-- A range-checked effect answers a next state only where the range is in memory. -/
theorem checkedRange_next {base n : Nat} {t u : State} (h : checkedRange base n t = .next u) :
    (n = 0 ∨ base + n ≤ memSize) ∧ u = t := by
  rcases checkedRange_cases base n t with ⟨h1, h2⟩ | ⟨-, -, h2⟩
  · rw [h2] at h; cases h; exact ⟨h1, rfl⟩
  · rw [h2] at h; cases h

/-! ### The call stack -/

/-- A push: the entry at SP is written and SP grows by 1, unless the stack is full. -/
theorem push_cases (w : Word) :
    (∃ (h : s.sp.val < 16), s.push w = some { s with stack := s.stack.set s.sp.val w, sp := ⟨s.sp.val + 1, by omega⟩ }) ∨
    (s.sp.val = 16 ∧ s.push w = none) := by
  unfold State.push
  by_cases h : s.sp.val < 16
  · exact .inl ⟨h, by simp [h]⟩
  · exact .inr ⟨by omega, by simp [h]⟩

/-- A pop: SP shrinks by 1 and the entry at the new SP is read, unless the stack is empty. -/
theorem pop_cases :
    (∃ (_ : s.sp.val ≠ 0), s.pop = some ({ s with sp := ⟨s.sp.val - 1, by omega⟩ }, s.stack[s.sp.val - 1])) ∨
    (s.sp.val = 0 ∧ s.pop = none) := by
  unfold State.pop
  by_cases h : s.sp.val = 0
  · exact .inr ⟨h, by simp [h]⟩
  · exact .inl ⟨h, by simp [h]⟩

/-! ### The fetch -/

/-- A fetch in range reads the two bytes at pc, big-endian. -/
theorem fetch_ok (h : s.canFetch) : s.fetch = .ok (wordOfBytes (s.memRead s.pc.toNat) (s.memRead (s.pc.toNat + 1))) := by
  have h' : s.pc.toNat ≤ 4094 := h
  have : firstOutOfRange s.pc.toNat 2 = none := firstOutOfRange_none.2 (.inr (by simp only [memSize]; omega))
  simp [State.fetch, this]

/-- A fetch out of range is fatal with the first byte address out of range. -/
theorem fetch_error (h : ¬ s.canFetch) : s.fetch = .error (.memOutOfRange (max s.pc.toNat memSize)) := by
  have h' : ¬ s.pc.toNat ≤ 4094 := h
  cases hf : firstOutOfRange s.pc.toNat 2 with
  | none => have h0 := firstOutOfRange_none.1 hf; simp only [memSize] at h0; omega
  | some a => obtain ⟨-, -, rfl⟩ := firstOutOfRange_some hf; simp [State.fetch, hf]

/-- A word is fetched only in range. -/
theorem canFetch_of_fetch {w : Word} (h : s.fetch = .ok w) : s.canFetch := by
  by_contra hn
  rw [fetch_error s hn] at h
  cases h

@[simp] theorem fetch_beginTick : s.beginTick.fetch = s.fetch := rfl

/-! ### Keys and timers -/

/-- One key event: its key takes its value, every other key stays (R192). -/
theorem keyEvent_getElem (key : Vector Bool 16) (e : KeyEvent) (k : Fin 16) :
    (keyEvent key e)[k] = if k = e.key then e.pressed else key[k] := by
  by_cases h : k = e.key
  · subst h; simp [keyEvent]
  · have : e.key.val ≠ k.val := fun q => h (Fin.ext q.symm)
    simp [keyEvent, this, h]

/-- The lowest pressed key is pressed, and no lower key is. -/
theorem lowestPressed_some {key : Vector Bool 16} {k : Fin 16} (h : lowestPressed key = some k) :
    key[k] = true ∧ ∀ j : Fin 16, j < k → key[j] = false := by
  unfold lowestPressed at h
  obtain ⟨h1, as, bs, h2, h3⟩ := List.find?_eq_some_iff_append.1 h
  refine ⟨by simpa using h1, fun j hj => ?_⟩
  have hlen : as.length = k.val := by
    have hk : (List.finRange 16)[as.length]? = some k := by simp [h2]
    have : as.length < 16 ∧ as.length = k.val := by simpa [List.getElem?_eq_some_iff, Fin.ext_iff] using hk
    exact this.2
  have hj' : as[j.val]? = some j := by
    have : (List.finRange 16)[j.val]? = some j := by simp
    rw [h2, List.getElem?_append_left (by omega)] at this
    exact this
  simpa using h3 j (List.mem_of_getElem? hj')

/-- There is no lowest pressed key exactly when no key is pressed. -/
theorem lowestPressed_none {key : Vector Bool 16} : lowestPressed key = none ↔ ∀ k : Fin 16, key[k] = false := by
  simp [lowestPressed, List.find?_eq_none]

/-- KEYD_PICK picks a pressed key (R163). -/
theorem pickKey_some {p : Params} {key : Vector Bool 16} {k : Fin 16} (h : pickKey p key = some k) : key[k] = true := by
  unfold pickKey at h
  split at h
  · exact (lowestPressed_some h).1
  · split at h
    · cases h; assumption
    · exact (lowestPressed_some h).1

/-- KEYD_PICK picks a key whenever one is pressed (R163). -/
theorem pickKey_none {p : Params} {key : Vector Bool 16} (h : pickKey p key = none) (k : Fin 16) : key[k] = false := by
  unfold pickKey at h
  split at h
  · exact lowestPressed_none.1 h k
  · split at h
    · cases h
    · exact lowestPressed_none.1 h k

/-- The timer phase never wraps: a timer at 0 stays there, any other loses 1 when the driver is due (R190). -/
theorem countDown_toNat (due : Bool) (t : Byte) : (countDown due t).toNat = if due then t.toNat - 1 else t.toNat := by
  cases due with
  | false => rfl
  | true =>
    by_cases h : t = 0
    · subst h; rfl
    · have h0 : t.toNat ≠ 0 := fun e => h (BitVec.eq_of_toNat_eq e)
      have hb : (t != 0) = true := by simpa using h
      have := t.isLt
      rw [countDown, hb, Bool.and_self, if_pos rfl, if_pos rfl, BitVec.toNat_sub]
      change (2 ^ 8 - 1 + t.toNat) % 2 ^ 8 = t.toNat - 1
      omega

/-! ### Flags -/

/-- A flag-writing instruction changes data registers alone. -/
theorem writeFlagged_frame (x y : Reg) (flag result : Byte → Byte → Byte) :
    s.writeFlagged x y flag result = { s with v := (s.writeFlagged x y flag result).v } := by
  unfold State.writeFlagged
  split <;> rfl

/-- Where VF is no operand, both orders give the result in VX and the flag in VF (R130). -/
theorem writeFlagged_getV {x y : Reg} (hx : x ≠ vf) (hy : y ≠ vf) (flag result : Byte → Byte → Byte) (z : Reg) :
    (s.writeFlagged x y flag result).getV z =
      if z = x then result (s.getV x) (s.getV y) else if z = vf then flag (s.getV x) (s.getV y) else s.getV z := by
  unfold State.writeFlagged
  split
  · simp only [getV_setV, if_neg hx, if_neg hy]
  · simp only [getV_setV]
    by_cases hz : z = x
    · subst hz; simp [hx]
    · simp [hz]

/-! ### Blocks -/

/-- The registers of a block are those up to VX. -/
theorem mem_blockRegs {x r : Reg} : r ∈ blockRegs x ↔ r ≤ x := by
  revert x r; decide

/-- A key operand is V[X] when that is at most 15, else the fatal error (R161). -/
theorem keyOperand_cases (x : Reg) :
    (∃ k : Fin 16, (s.getV x).toNat = k.val ∧ s.keyOperand x = .ok k) ∨
    (15 < (s.getV x).toNat ∧ s.keyOperand x = .error (.keyIndexOutOfRange (s.getV x))) := by
  unfold State.keyOperand
  by_cases h : (s.getV x).toNat < 16
  · exact .inl ⟨⟨_, h⟩, rfl, by simp [h]⟩
  · exact .inr ⟨by omega, by simp [h]⟩

/-- The loop of STOR changes memory and I alone. -/
theorem storeRegs_frame (rs : List Reg) :
    s.storeRegs rs = { s with mem := (s.storeRegs rs).mem, i := (s.storeRegs rs).i } := by
  induction rs generalizing s with
  | nil => rfl
  | cons r rs ih => exact ih ((s.memWrite s.i.toNat (s.getV r)).setI (s.i + 1))

/-- The loop of READ changes data registers and I alone. -/
theorem loadRegs_frame (rs : List Reg) :
    s.loadRegs rs = { s with v := (s.loadRegs rs).v, i := (s.loadRegs rs).i } := by
  induction rs generalizing s with
  | nil => rfl
  | cons r rs ih => exact ih ((s.setV r (s.memRead s.i.toNat)).setI (s.i + 1))

/-- The loop of STOR advances I by one for each register. -/
theorem storeRegs_i (rs : List Reg) : (s.storeRegs rs).i = s.i + BitVec.ofNat 16 rs.length := by
  induction rs generalizing s with
  | nil => simp [State.storeRegs]
  | cons r rs ih => rw [State.storeRegs, ih]; simp [BitVec.ofNat_add, BitVec.add_assoc, BitVec.add_comm]

/-- The loop of READ advances I by one for each register. -/
theorem loadRegs_i (rs : List Reg) : (s.loadRegs rs).i = s.i + BitVec.ofNat 16 rs.length := by
  induction rs generalizing s with
  | nil => simp [State.loadRegs]
  | cons r rs ih => rw [State.loadRegs, ih]; simp [BitVec.ofNat_add, BitVec.add_assoc, BitVec.add_comm]

theorem length_blockRegs (x : Reg) : (blockRegs x).length = x.val + 1 := by
  simp [blockRegs]

/-- The loop of STOR stores the registers in order from I, as `memWriteBytes` does, while I does not wrap. -/
theorem storeRegs_mem (rs : List Reg) (h : s.i.toNat + rs.length ≤ memSize) :
    (s.storeRegs rs).mem = (s.memWriteBytes s.i.toNat (rs.map s.getV)).mem := by
  induction rs generalizing s with
  | nil => rfl
  | cons r rs ih =>
    simp only [List.length_cons, memSize] at h
    have hi : (s.i + 1).toNat = s.i.toNat + 1 := by rw [BitVec.toNat_add]; simp; omega
    rw [State.storeRegs, ih _ (by simp only [setI_i, memSize]; omega)]
    simp only [setI_i, hi, List.map_cons, State.memWriteBytes]
    have aux : ∀ (bs : List Byte) (a : Nat) (t u : State), t.mem = u.mem → t.params = u.params →
        (t.memWriteBytes a bs).mem = (u.memWriteBytes a bs).mem := by
      intro bs
      induction bs with
      | nil => intro a t u h1 _; exact h1
      | cons b bs ih2 =>
        intro a t u h1 h2
        exact ih2 (a + 1) _ _ (by simp [h1, h2]) h2
    exact aux _ _ _ _ rfl rfl

/-- The loop of STOR keeps the canonical form inside memory. -/
theorem storeRegs_wf (rs : List Reg) (h : s.i.toNat + rs.length ≤ memSize) (hw : s.mem.wf s.params = true) :
    (s.storeRegs rs).mem.wf s.params = true := by
  rw [storeRegs_mem s rs h]
  exact memWriteBytes_wf s _ _ hw (by simpa using h)

end Sys2Proof.Machine
end

