-- ==== Sys2Proof/Laws/Display.lean ====
section
/-! SUPPORT. What the XOR engine does to one pixel and to the collision flag (44_display.md R152, R153): one lemma for a
toggle, one for a row, one for the rows of a sprite. -/

namespace Sys2Proof.Machine

/-- A toggle inverts its pixel and no other. -/
theorem togglePixel_getElem (fb : Frame) (px x : Fin 64) (py y : Fin 32) :
    (togglePixel fb px py)[y][x] = if px = x ∧ py = y then !fb[y][x] else fb[y][x] := by
  by_cases hy : py = y
  · subst hy
    by_cases hx : px = x
    · subst hx; simp [togglePixel]
    · have : px.val ≠ x.val := fun e => hx (Fin.ext e)
      simp [togglePixel, hx, this]
  · have : py.val ≠ y.val := fun e => hy (Fin.ext e)
    simp [togglePixel, hy, this]

/-- Some column of `cols` in the row `row`, whose byte is `b`, is set and lies at pixel (px, py). -/
def rowCovers (x0 y0 : Byte) (row : Nat) (b : Byte) (cols : List Nat) (px : Fin 64) (py : Fin 32) : Prop :=
  ∃ col ∈ cols, spriteBit b col = true ∧ pixelX x0 col = px ∧ pixelY y0 row = py

/-- Two columns of a sprite lie at two different pixels. -/
theorem pixelX_inj {x0 : Byte} {c d : Nat} (hc : c < 8) (hd : d < 8) (h : pixelX x0 c = pixelX x0 d) : c = d := by
  have := congrArg Fin.val h
  simp only [pixelX, Fin.ofNat] at this
  omega

/-- Two rows of a sprite lie in two different rows of pixels. -/
theorem pixelY_inj {y0 : Byte} {c d : Nat} (hc : c < 32) (hd : d < 32) (h : pixelY y0 c = pixelY y0 d) : c = d := by
  have := congrArg Fin.val h
  simp only [pixelY, Fin.ofNat] at this
  omega

/-- Columns drawn one after another: the covered pixels are inverted, the others stay, and a covered pixel that was on is
a hit. -/
theorem drawPixels_spec (x0 y0 : Byte) (row : Nat) (b : Byte) (cols : List Nat) (hn : cols.Nodup) (hc : ∀ c ∈ cols, c < 8) :
    ∀ c : Canvas,
      (∀ px py, rowCovers x0 y0 row b cols px py →
        (cols.foldl (drawPixel x0 y0 row b) c).fb[py][px] = !c.fb[py][px]) ∧
      (∀ px py, ¬ rowCovers x0 y0 row b cols px py →
        (cols.foldl (drawPixel x0 y0 row b) c).fb[py][px] = c.fb[py][px]) ∧
      ((cols.foldl (drawPixel x0 y0 row b) c).hit = true ↔
        c.hit = true ∨ ∃ px py, rowCovers x0 y0 row b cols px py ∧ c.fb[py][px] = true) := by
  induction cols with
  | nil => intro c; simp [rowCovers]
  | cons k cols ih =>
    intro c
    rw [List.nodup_cons] at hn
    have hk : k < 8 := hc k (by simp)
    obtain ⟨i1, i2, i3⟩ := ih hn.2 (fun d hd => hc d (by simp [hd])) (drawPixel x0 y0 row b c k)
    rw [List.foldl_cons]
    by_cases hb : spriteBit b k = true
    · -- the pixel of column `k` is toggled here, and no later column touches it
      have hcov : ∀ px py, rowCovers x0 y0 row b (k :: cols) px py ↔
          (pixelX x0 k = px ∧ pixelY y0 row = py) ∨ rowCovers x0 y0 row b cols px py := by
        intro px py; simp [rowCovers, hb]
      have hdis : ∀ px py, pixelX x0 k = px → ¬ rowCovers x0 y0 row b cols px py := by
        rintro px py rfl ⟨d, hd, _, h2, _⟩
        exact hn.1 (pixelX_inj (hc d (by simp [hd])) hk h2 ▸ hd)
      have hfb : ∀ px py, (drawPixel x0 y0 row b c k).fb[py][px] =
          if pixelX x0 k = px ∧ pixelY y0 row = py then !c.fb[py][px] else c.fb[py][px] := by
        intro px py
        rw [show (drawPixel x0 y0 row b c k).fb = togglePixel c.fb (pixelX x0 k) (pixelY y0 row) by simp [drawPixel, hb]]
        exact togglePixel_getElem _ _ _ _ _
      have hhit : (drawPixel x0 y0 row b c k).hit = (c.hit || c.fb[pixelY y0 row][pixelX x0 k]) := by
        simp [drawPixel, hb]
      refine ⟨fun px py h => ?_, fun px py h => ?_, ?_⟩
      · rcases (hcov px py).1 h with h1 | h1
        · rw [i2 px py (hdis px py h1.1), hfb, if_pos h1]
        · rw [i1 px py h1, hfb, if_neg (fun h2 => hdis px py h2.1 h1)]
      · rw [hcov] at h
        rw [i2 px py (fun h1 => h (.inr h1)), hfb, if_neg (fun h1 => h (.inl h1))]
      · rw [i3, hhit, Bool.or_eq_true]
        constructor
        · rintro ((h | h) | ⟨px, py, h1, h2⟩)
          · exact .inl h
          · exact .inr ⟨_, _, (hcov _ _).2 (.inl ⟨rfl, rfl⟩), h⟩
          · rw [hfb, if_neg (fun h3 => hdis px py h3.1 h1)] at h2
            exact .inr ⟨px, py, (hcov _ _).2 (.inr h1), h2⟩
        · rintro (h | ⟨px, py, h1, h2⟩)
          · exact .inl (.inl h)
          · rcases (hcov _ _).1 h1 with ⟨rfl, rfl⟩ | h3
            · exact .inl (.inr h2)
            · refine .inr ⟨px, py, h3, ?_⟩
              rw [hfb, if_neg (fun h4 => hdis px py h4.1 h3)]
              exact h2
    · have he : drawPixel x0 y0 row b c k = c := by simp [drawPixel, hb]
      have hcov : ∀ px py, rowCovers x0 y0 row b (k :: cols) px py ↔ rowCovers x0 y0 row b cols px py := by
        intro px py; simp [rowCovers, hb]
      simp only [hcov]
      rw [he] at i1 i2 i3 ⊢
      exact ⟨i1, i2, i3⟩

/-- Some row of `bs`, the first of them being row number `row`, covers pixel (px, py). -/
def rowsCover (x0 y0 : Byte) (row : Nat) (bs : List Byte) (px : Fin 64) (py : Fin 32) : Prop :=
  ∃ (k : Nat) (h : k < bs.length), rowCovers x0 y0 (row + k) bs[k] (List.range 8) px py

theorem rowsCover_cons (x0 y0 : Byte) (row : Nat) (b : Byte) (bs : List Byte) (px : Fin 64) (py : Fin 32) :
    rowsCover x0 y0 row (b :: bs) px py ↔
      rowCovers x0 y0 row b (List.range 8) px py ∨ rowsCover x0 y0 (row + 1) bs px py := by
  constructor
  · rintro ⟨k, h, hk⟩
    cases k with
    | zero => exact .inl hk
    | succ k => exact .inr ⟨k, by simpa using h, by simpa [Nat.add_assoc, Nat.add_comm 1 k] using hk⟩
  · rintro (h | ⟨k, h, hk⟩)
    · exact ⟨0, by simp, h⟩
    · exact ⟨k + 1, by simpa using h, by simpa [Nat.add_assoc, Nat.add_comm 1 k] using hk⟩

/-- The rows of a sprite: the covered pixels are inverted, the others stay, and a covered pixel that was on is a hit. -/
theorem drawRows_spec (x0 y0 : Byte) (bs : List Byte) :
    ∀ (row : Nat) (c : Canvas), row + bs.length ≤ 32 →
      (∀ px py, rowsCover x0 y0 row bs px py → (drawRows x0 y0 row bs c).fb[py][px] = !c.fb[py][px]) ∧
      (∀ px py, ¬ rowsCover x0 y0 row bs px py → (drawRows x0 y0 row bs c).fb[py][px] = c.fb[py][px]) ∧
      ((drawRows x0 y0 row bs c).hit = true ↔
        c.hit = true ∨ ∃ px py, rowsCover x0 y0 row bs px py ∧ c.fb[py][px] = true) := by
  induction bs with
  | nil => intro row c _; simp [drawRows, rowsCover]
  | cons b bs ih =>
    intro row c hl
    simp only [List.length_cons] at hl
    obtain ⟨r1, r2, r3⟩ := drawPixels_spec x0 y0 row b (List.range 8) List.nodup_range (fun d hd => by simpa using hd) c
    obtain ⟨i1, i2, i3⟩ := ih (row + 1) (drawRow x0 y0 row b c) (by omega)
    have hdis : ∀ px py, rowCovers x0 y0 row b (List.range 8) px py → ¬ rowsCover x0 y0 (row + 1) bs px py := by
      rintro px py ⟨_, _, _, _, h1⟩ ⟨k, hk, _, _, _, _, h2⟩
      have := pixelY_inj (y0 := y0) (by omega) (by omega) (h1.trans h2.symm)
      omega
    rw [drawRows]
    refine ⟨fun px py h => ?_, fun px py h => ?_, ?_⟩
    · rcases (rowsCover_cons _ _ _ _ _ _ _).1 h with h1 | h1
      · rw [i2 px py (hdis px py h1)]; exact r1 px py h1
      · rw [i1 px py h1]; exact congrArg _ (r2 px py (fun h2 => hdis px py h2 h1))
    · rw [rowsCover_cons] at h
      rw [i2 px py (fun h1 => h (.inr h1))]; exact r2 px py (fun h1 => h (.inl h1))
    · rw [i3]
      constructor
      · rintro (h | ⟨px, py, h1, h2⟩)
        · rcases r3.1 h with h | ⟨px, py, h3, h4⟩
          · exact .inl h
          · exact .inr ⟨px, py, (rowsCover_cons _ _ _ _ _ _ _).2 (.inl h3), h4⟩
        · refine .inr ⟨px, py, (rowsCover_cons _ _ _ _ _ _ _).2 (.inr h1), ?_⟩
          exact (r2 px py (fun h3 => hdis px py h3 h1)).symm.trans h2
      · rintro (h | ⟨px, py, h1, h2⟩)
        · exact .inl (r3.2 (.inl h))
        · rcases (rowsCover_cons _ _ _ _ _ _ _).1 h1 with h3 | h3
          · exact .inl (r3.2 (.inr ⟨px, py, h3, h2⟩))
          · exact .inr ⟨px, py, h3, (r2 px py (fun h4 => hdis px py h4 h3)).trans h2⟩

/-- The rows of `execDraw` cover what `spriteCovers` says. -/
theorem rowsCover_memReadBytes (s : State) (x0 y0 : Byte) (n : Nat) (px : Fin 64) (py : Fin 32) :
    rowsCover x0 y0 0 (s.memReadBytes s.i.toNat n) px py ↔ s.spriteCovers x0 y0 n px py := by
  simp only [rowsCover, rowCovers, State.spriteCovers, State.memReadBytes, List.length_map, List.length_range,
    List.getElem_map, List.getElem_range, List.mem_range, spriteBit, pixelX, pixelY, Fin.ext_iff, Fin.ofNat, Nat.zero_add]
  constructor
  · rintro ⟨r, hr, c, hc, hb, hx, hy⟩
    exact ⟨r, c, hr, hc, hb, hx.symm, hy.symm⟩
  · rintro ⟨r, c, hr, hc, hb, hx, hy⟩
    exact ⟨r, hr, c, hc, hb, hx.symm, hy.symm⟩

end Sys2Proof.Machine
end

