-- ==== Sys2Proof/Laws/Exec.lean ====
section
/-! SUPPORT. What the meanings with more than one case can do: CALL, RET, the key skips and KEYD. The meanings of BCD, STOR,
READ and DRAW are `checkedRange` (see `checkedRange_cases`); every other meaning is one update of the state. -/

namespace Sys2Proof.Machine

variable (s : State)

theorem execCall_cases (nnn : Addr12) :
    (∃ h : s.sp.val < 16, execCall nnn s =
      .next { s with stack := s.stack.set s.sp.val s.pc, sp := ⟨s.sp.val + 1, by omega⟩, pc := zext16 nnn }) ∨
    (s.sp.val = 16 ∧ execCall nnn s = .fault (.stackOverflow (s.pc - 2))) := by
  unfold execCall
  rcases push_cases s s.pc with ⟨h, e⟩ | ⟨h, e⟩ <;> rw [e]
  · exact .inl ⟨h, rfl⟩
  · exact .inr ⟨h, rfl⟩

theorem execRet_cases :
    (∃ _ : s.sp.val ≠ 0, execRet s =
      .next { s with sp := ⟨s.sp.val - 1, by omega⟩, pc := s.stack[s.sp.val - 1] }) ∨
    (s.sp.val = 0 ∧ execRet s = .fault (.stackUnderflow (s.pc - 2))) := by
  unfold execRet
  rcases pop_cases s with ⟨h, e⟩ | ⟨h, e⟩ <;> rw [e]
  · exact .inl ⟨h, rfl⟩
  · exact .inr ⟨h, rfl⟩

theorem execSkpr_cases (x : Reg) :
    (∃ k : Fin 16, (s.getV x).toNat = k.val ∧ execSkpr x s = .next (s.skipIf s.key[k])) ∨
    (15 < (s.getV x).toNat ∧ execSkpr x s = .fault (.keyIndexOutOfRange (s.getV x))) := by
  unfold execSkpr
  rcases keyOperand_cases s x with ⟨k, h, e⟩ | ⟨h, e⟩ <;> rw [e]
  · exact .inl ⟨k, h, rfl⟩
  · exact .inr ⟨h, rfl⟩

theorem execSkup_cases (x : Reg) :
    (∃ k : Fin 16, (s.getV x).toNat = k.val ∧ execSkup x s = .next (s.skipIf (!s.key[k]))) ∨
    (15 < (s.getV x).toNat ∧ execSkup x s = .fault (.keyIndexOutOfRange (s.getV x))) := by
  unfold execSkup
  rcases keyOperand_cases s x with ⟨k, h, e⟩ | ⟨h, e⟩ <;> rw [e]
  · exact .inl ⟨k, h, rfl⟩
  · exact .inr ⟨h, rfl⟩

/-- One execution of KEYD rewinds idle, captures a pressed key, rewinds captured, or completes (45_input_timer.md R163). -/
theorem keyWait_cases (x : Reg) :
    (s.kw = .idle ∧ (∀ k : Fin 16, s.key[k] = false) ∧ s.keyWait x = s.setPc (s.pc - 2)) ∨
    (∃ k : Fin 16, s.kw = .idle ∧ s.key[k] = true ∧ pickKey s.params s.key = some k ∧
      s.keyWait x = { s.setV x (BitVec.ofNat 8 k.val) with kw := .captured k, pc := s.pc - 2 }) ∨
    (∃ k : Fin 16, s.kw = .captured k ∧ s.key[k] = true ∧ s.keyWait x = s.setPc (s.pc - 2)) ∨
    (∃ k : Fin 16, s.kw = .captured k ∧ s.key[k] = false ∧ s.keyWait x = { s with kw := .idle }) := by
  have hkw : s.kw = .idle ∨ ∃ k, s.kw = .captured k := by
    rcases s.kw with _ | k
    · exact .inl rfl
    · exact .inr ⟨k, rfl⟩
  rcases hkw with hk | ⟨k, hk⟩
  · cases hp : pickKey s.params s.key with
    | none => exact .inl ⟨hk, pickKey_none hp, by simp only [State.keyWait, hk, hp, rewindPc_eq]⟩
    | some k => exact .inr (.inl ⟨k, hk, pickKey_some hp, rfl, by simp only [State.keyWait, hk, hp]; rfl⟩)
  · by_cases h : s.key[k] = true
    · exact .inr (.inr (.inl ⟨k, hk, h, by simp only [State.keyWait, hk, h, if_true, rewindPc_eq]⟩))
    · exact .inr (.inr (.inr ⟨k, hk, by simpa using h, by simp only [State.keyWait, hk, h]; rfl⟩))

end Sys2Proof.Machine
end

