-- ==== Sys2Proof/Laws/PerInstr.lean ====
section
/-! SUPPORT. For every instruction: its word selects its own row of the opcode map (30_encoding.md R75). -/

namespace Sys2Proof.Laws.EncodesRow

/-- The word of a well-formed instruction selects the instruction's row of the opcode map (R75). -/
def Statement (i : Instr) : Prop := ∀ strict, i.wellFormed strict = true → (i.row strict).selects (encode i) = true

/-- A row selects a word when the masked word has the row's number. -/
theorem selects_of_toNat {m v w : Word} {name : String} (h : (w &&& m).toNat = v.toNat) :
    (OpcodeRow.mk name m v).selects w = true := by
  simpa [OpcodeRow.selects] using BitVec.eq_of_toNat_eq h

theorem selects_nnn (name : String) (k : BitVec 4) (nnn : Addr12) (v : Word) (h : v.toNat = k.toNat * 4096) :
    (OpcodeRow.mk name 0xF000#16 v).selects (encodeNNN k nnn) = true :=
  selects_of_toNat (by rw [and_F000_toNat, encodeNNN_toNat, h]; omega)

theorem selects_xnn (name : String) (k : BitVec 4) (x : Reg) (nn : Byte) (v : Word) (h : v.toNat = k.toNat * 4096) :
    (OpcodeRow.mk name 0xF000#16 v).selects (encodeXNN k x nn) = true :=
  selects_of_toNat (by rw [and_F000_toNat, encodeXNN_toNat, h]; omega)

theorem selects_x_nn (name : String) (k : BitVec 4) (x : Reg) (nn : Byte) (v : Word)
    (h : v.toNat = k.toNat * 4096 + nn.toNat) : (OpcodeRow.mk name 0xF0FF#16 v).selects (encodeXNN k x nn) = true :=
  selects_of_toNat (by rw [and_F0FF_toNat, encodeXNN_toNat, h]; omega)

theorem selects_xyn (name : String) (k : BitVec 4) (x y : Reg) (n : Nibble) (v : Word) (h : v.toNat = k.toNat * 4096) :
    (OpcodeRow.mk name 0xF000#16 v).selects (encodeXYN k x y n) = true :=
  selects_of_toNat (by rw [and_F000_toNat, encodeXYN_toNat, h]; omega)

theorem selects_xy (name : String) (k : BitVec 4) (x y : Reg) (n : Nibble) (v : Word)
    (h : v.toNat = k.toNat * 4096 + n.val) : (OpcodeRow.mk name 0xF00F#16 v).selects (encodeXYN k x y n) = true :=
  selects_of_toNat (by rw [and_F00F_toNat, encodeXYN_toNat, h]; omega)

theorem selects_59 (name : String) (k : BitVec 4) (x y : Reg) (n : Nibble) (v : Word) (h : v.toNat = k.toNat * 4096)
    (strict : Bool) (hn : lowNibbleOk strict n = true) :
    (OpcodeRow.mk name (mask59 strict) v).selects (encodeXYN k x y n) = true := by
  cases strict with
  | false => exact selects_xyn name k x y n v h
  | true =>
    have h0 : n = 0 := by simpa [lowNibbleOk] using hn
    subst h0
    exact selects_xy name k x y 0 v (by rw [h]; simp)

theorem cls : Statement .cls := by intro st _; cases st <;> decide
theorem ret : Statement .ret := by intro st _; cases st <;> decide
theorem jump (nnn : Addr12) : Statement (.jump nnn) := fun _ _ => selects_nnn _ _ _ _ rfl
theorem call (nnn : Addr12) : Statement (.call nnn) := fun _ _ => selects_nnn _ _ _ _ rfl
theorem seImm (x : Reg) (nn : Byte) : Statement (.seImm x nn) := fun _ _ => selects_xnn _ _ _ _ _ rfl
theorem sneImm (x : Reg) (nn : Byte) : Statement (.sneImm x nn) := fun _ _ => selects_xnn _ _ _ _ _ rfl
theorem seReg (x y : Reg) (n : Nibble) : Statement (.seReg x y n) := fun st h => selects_59 _ _ _ _ _ _ rfl st h
theorem load (x : Reg) (nn : Byte) : Statement (.load x nn) := fun _ _ => selects_xnn _ _ _ _ _ rfl
theorem add (x : Reg) (nn : Byte) : Statement (.add x nn) := fun _ _ => selects_xnn _ _ _ _ _ rfl
theorem move (x y : Reg) : Statement (.move x y) := fun _ _ => selects_xy _ _ _ _ _ _ rfl
theorem or (x y : Reg) : Statement (.or x y) := fun _ _ => selects_xy _ _ _ _ _ _ rfl
theorem and (x y : Reg) : Statement (.and x y) := fun _ _ => selects_xy _ _ _ _ _ _ rfl
theorem xor (x y : Reg) : Statement (.xor x y) := fun _ _ => selects_xy _ _ _ _ _ _ rfl
theorem addr (x y : Reg) : Statement (.addr x y) := fun _ _ => selects_xy _ _ _ _ _ _ rfl
theorem sub (x y : Reg) : Statement (.sub x y) := fun _ _ => selects_xy _ _ _ _ _ _ rfl
theorem shr (x y : Reg) : Statement (.shr x y) := fun _ _ => selects_xy _ _ _ _ _ _ rfl
theorem subn (x y : Reg) : Statement (.subn x y) := fun _ _ => selects_xy _ _ _ _ _ _ rfl
theorem shl (x y : Reg) : Statement (.shl x y) := fun _ _ => selects_xy _ _ _ _ _ _ rfl
theorem sneReg (x y : Reg) (n : Nibble) : Statement (.sneReg x y n) := fun st h => selects_59 _ _ _ _ _ _ rfl st h
theorem loadi (nnn : Addr12) : Statement (.loadi nnn) := fun _ _ => selects_nnn _ _ _ _ rfl
theorem jumpi (nnn : Addr12) : Statement (.jumpi nnn) := fun _ _ => selects_nnn _ _ _ _ rfl
theorem rand (x : Reg) (nn : Byte) : Statement (.rand x nn) := fun _ _ => selects_xnn _ _ _ _ _ rfl
theorem draw (x y : Reg) (n : Nibble) : Statement (.draw x y n) := fun _ _ => selects_xyn _ _ _ _ _ _ rfl
theorem skpr (x : Reg) : Statement (.skpr x) := fun _ _ => selects_x_nn _ _ _ _ _ rfl
theorem skup (x : Reg) : Statement (.skup x) := fun _ _ => selects_x_nn _ _ _ _ _ rfl
theorem moved (x : Reg) : Statement (.moved x) := fun _ _ => selects_x_nn _ _ _ _ _ rfl
theorem keyd (x : Reg) : Statement (.keyd x) := fun _ _ => selects_x_nn _ _ _ _ _ rfl
theorem loadd (x : Reg) : Statement (.loadd x) := fun _ _ => selects_x_nn _ _ _ _ _ rfl
theorem loads (x : Reg) : Statement (.loads x) := fun _ _ => selects_x_nn _ _ _ _ _ rfl
theorem addi (x : Reg) : Statement (.addi x) := fun _ _ => selects_x_nn _ _ _ _ _ rfl
theorem ldspr (x : Reg) : Statement (.ldspr x) := fun _ _ => selects_x_nn _ _ _ _ _ rfl
theorem bcd (x : Reg) : Statement (.bcd x) := fun _ _ => selects_x_nn _ _ _ _ _ rfl
theorem stor (x : Reg) : Statement (.stor x) := fun _ _ => selects_x_nn _ _ _ _ _ rfl
theorem read (x : Reg) : Statement (.read x) := fun _ _ => selects_x_nn _ _ _ _ _ rfl

end Sys2Proof.Laws.EncodesRow
end

