-- ==== Sys2Proof/Tests/Slice0.lean ====
section
/-! SUPPORT. Tests: the expected values are those of spec/95_test_vectors.md (the vector's name stands before each test) or of
the rules' own examples. After them, a witness for the hypotheses of every statement that has some. -/

namespace Sys2Proof.Tests

open Sys2Proof Sys2Proof.Machine Sys2Proof.Config

/-! ### Helpers -/

/-- The state in which the instruction at 0x200 executes, right after reset. -/
def entry : State := State.reset.setPc 0x202

/-- `entry` with data registers set. -/
def regs (vs : List (Reg × Byte)) : State := vs.foldl (fun s p => s.setV p.1 p.2) entry

/-- The machine whose flag is written last. -/
def lastParams : Params := { defaultParams with vfOrder := .flagLast }

/-- The same registers under VF_ORDER = flag_last. -/
def regsLast (vs : List (Reg × Byte)) : State := { regs vs with params := lastParams }

/-- A view of the state an instruction leaves, if it leaves one. -/
def after {α : Type} (i : Instr) (s : State) (f : State → α) : Option α :=
  match exec i s with
  | .next t => some (f t)
  | .fault _ => none
  | .refused _ => none

/-- The fatal error of an instruction, if it raises one. -/
def failure (o : Host.Outcome State Fault Refusal) : Option Fault :=
  match o with
  | .next _ => none
  | .fault r => some r
  | .refused _ => none

/-- A view of the state a tick leaves, if it leaves one. -/
def tick {α : Type} (s : State) (f : State → α) : Option α :=
  match step s with
  | .next t => some (f t)
  | .fault _ => none
  | .refused _ => none

/-- A tick's input with no key event, no timer and the random byte 0xB7. -/
def quiet : TickInput := ⟨[], false, 0xB7⟩

/-- A tick's input with the timer driver due. -/
def due : TickInput := ⟨[], true, 0x00⟩

/-- The machine after reset with one word at 0x200 and one input. -/
def boot (w : Nat) (inp : TickInput) : State := (State.reset.withInputs [inp]).withFetchWord 16 w

/-- The pixels (x, y) of a row from column `x` on. -/
def row (s : State) (y : Fin 32) (xs : List (Fin 64)) : List Bool := xs.map fun x => s.pixel x y

/-! ### Well-formedness: each check refuses an ill-formed term -/

theorem test_wf_seReg : (Instr.seReg 1 2 1).wellFormed true = false ∧ (Instr.seReg 1 2 0).wellFormed true = true ∧
    (Instr.seReg 1 2 1).wellFormed false = true := by decide
theorem test_wf_sneReg : (Instr.sneReg 10 11 7).wellFormed true = false ∧ (Instr.sneReg 10 11 0).wellFormed true = true ∧
    (Instr.sneReg 10 11 7).wellFormed false = true := by decide

/-! ### Decoding: words written out from 30_encoding.md R75 and 95_test_vectors.md 2.1 -/

theorem test_decode_family0 :
    decodeWord false 0x00E0 = some .cls ∧ decodeWord false 0x00EE = some .ret ∧ decodeWord false 0x0000 = none ∧
    decodeWord false 0x00E1 = none ∧ decodeWord false 0x01E0 = none ∧ decodeWord false 0x0123 = none := by decide
theorem test_decode_control :
    decodeWord false 0x12A4 = some (.jump 0x2A4) ∧ decodeWord false 0x2300 = some (.call 0x300) ∧
    decodeWord false 0xB123 = some (.jumpi 0x123) ∧ decodeWord false 0x3A42 = some (.seImm 10 0x42) ∧
    decodeWord false 0x4A43 = some (.sneImm 10 0x43) ∧ decodeWord false 0x5330 = some (.seReg 3 3 0) ∧
    decodeWord false 0x9330 = some (.sneReg 3 3 0) := by decide
theorem test_decode_strict59 :
    decodeWord false 0x5121 = some (.seReg 1 2 1) ∧ decodeWord true 0x5121 = none ∧
    decodeWord false 0x9AB7 = some (.sneReg 10 11 7) ∧ decodeWord true 0x9AB7 = none ∧
    decodeWord true 0x5120 = some (.seReg 1 2 0) := by decide
theorem test_decode_load_logic :
    decodeWord false 0x67AB = some (.load 7 0xAB) ∧ decodeWord false 0x7001 = some (.add 0 1) ∧
    decodeWord false 0x8010 = some (.move 0 1) ∧ decodeWord false 0x8011 = some (.or 0 1) ∧
    decodeWord false 0x8012 = some (.and 0 1) ∧ decodeWord false 0x8443 = some (.xor 4 4) := by decide
theorem test_decode_arith :
    decodeWord false 0x8AB4 = some (.addr 10 11) ∧ decodeWord false 0x8015 = some (.sub 0 1) ∧
    decodeWord false 0x8A36 = some (.shr 10 3) ∧ decodeWord false 0x8017 = some (.subn 0 1) ∧
    decodeWord false 0x800E = some (.shl 0 0) ∧ decodeWord false 0x8008 = none ∧ decodeWord false 0x800F = none := by decide
theorem test_decode_index_memory :
    decodeWord false 0xA123 = some (.loadi 0x123) ∧ decodeWord false 0xF21E = some (.addi 2) ∧
    decodeWord false 0xF129 = some (.ldspr 1) ∧ decodeWord false 0xF333 = some (.bcd 3) ∧
    decodeWord false 0xF155 = some (.stor 1) ∧ decodeWord false 0xF265 = some (.read 2) := by decide
theorem test_decode_display_random :
    decodeWord false 0xD7A3 = some (.draw 7 10 3) ∧ decodeWord false 0xC30F = some (.rand 3 0x0F) := by decide
theorem test_decode_input_timer :
    decodeWord false 0xE59E = some (.skpr 5) ∧ decodeWord false 0xE5A1 = some (.skup 5) ∧
    decodeWord false 0xF107 = some (.moved 1) ∧ decodeWord false 0xF30A = some (.keyd 3) ∧
    decodeWord false 0xF215 = some (.loadd 2) ∧ decodeWord false 0xF218 = some (.loads 2) ∧
    decodeWord false 0xE09F = none ∧ decodeWord false 0xF000 = none ∧ decodeWord false 0xFFFF = none := by decide
theorem test_decode_bytes :
    decode false [0x60, 0x05, 0x61] = .ok (.load 0 5, [0x61]) ∧ decode false [0x60] = .error .truncated ∧
    decode false [0xFF, 0xFF] = .error (.illegalOpcode 0xFFFF) := by decide
theorem test_decode_table_word :
    decodeTableWord 16 0xD7A3 = some (.draw 7 10 3) ∧ decodeTableWord 16 0x00E0 = some .cls ∧
    decodeTableWord 16 0x5000 = some (.seReg 0 0 0) ∧ decodeTableWord 16 0x0000 = none := by decide
theorem test_encode : encode (.draw 7 10 3) = 0xD7A3 ∧ encode (.jumpi 0x123) = 0xB123 ∧ encode (.shr 10 3) = 0x8A36 ∧
    encode (.seReg 1 2 1) = 0x5121 ∧ encode (.rand 3 0x0F) = 0xC30F ∧ encode (.read 2) = 0xF265 := by decide

/-! ### Assembly (30_encoding.md R81) -/

theorem test_asm_immediates : parseLine "LOAD V0,5".toList = some (.load 0 5) ∧
    parseLine "LOAD V0,0xFF".toList = some (.load 0 0xFF) ∧ parseLine "LOAD V0,256".toList = none := by decide
theorem test_asm_forms : parseLine "SE V3,V4".toList = some (.seReg 3 4 0) ∧
    parseLine "SE V3,4".toList = some (.seImm 3 4) ∧ parseLine "SHR VA".toList = some (.shr 10 0) ∧
    parseLine "SHR VA,V3".toList = some (.shr 10 3) ∧ parseLine "CLS".toList = some .cls ∧
    parseLine "JUMP 0x20C".toList = some (.jump 0x20C) ∧ parseLine "DRAW V0,V1,2".toList = some (.draw 0 1 2) := by decide

/-! ### Control flow -/

-- CF-1
theorem test_jump : after (.jump 0x2A4) entry (·.pc) = some 0x2A4 := by decide
-- CF-3
theorem test_call : after (.call 0x300) entry (fun t => (t.stack[0], t.sp.val, t.pc)) = some (0x202, 1, 0x300) := by decide
-- CF-4
theorem test_call_full : failure (exec (.call 0x300) { entry with sp := 16 }) = some (.stackOverflow 0x200) := by decide
-- CF-6
theorem test_ret : after .ret { entry with sp := 2, stack := entry.stack.set 1 0x30A } (fun t => (t.sp.val, t.pc)) =
    some (1, 0x30A) := by decide
-- CF-5
theorem test_ret_empty : failure (exec .ret entry) = some (.stackUnderflow 0x200) := by decide
-- CF-8
theorem test_jumpi : after (.jumpi 0xFFF) (regs [(0, 0xFF), (1, 0x01)]) (·.pc) = some 0x10FE := by decide
-- CF-9
theorem test_seImm : after (.seImm 10 0x42) (regs [(10, 0x42)]) (·.pc) = some 0x204 ∧
    after (.seImm 10 0x43) (regs [(10, 0x42)]) (·.pc) = some 0x202 := by decide
-- CF-10
theorem test_sneImm : after (.sneImm 10 0x42) (regs [(10, 0x42)]) (·.pc) = some 0x202 ∧
    after (.sneImm 10 0x43) (regs [(10, 0x42)]) (·.pc) = some 0x204 := by decide
-- CF-13, and unequal registers
theorem test_seReg : after (.seReg 1 2 1) (regs [(1, 4), (2, 4)]) (·.pc) = some 0x204 ∧
    after (.seReg 1 2 0) (regs [(1, 4), (2, 5)]) (·.pc) = some 0x202 := by decide
-- CF-12, and the example of R108
theorem test_sneReg : after (.sneReg 3 3 0) (regs [(3, 9)]) (·.pc) = some 0x202 ∧
    after (.sneReg 1 2 0) (regs [(1, 7), (2, 8)]) (·.pc) = some 0x204 := by decide

/-! ### Immediate and register operations -/

-- LL-1
theorem test_load : after (.load 7 0xAB) entry (·.getV 7) = some 0xAB := by decide
-- LL-2
theorem test_add : after (.add 0 1) (regs [(0, 0xFF), (15, 0x55)]) (fun t => (t.getV 0, t.getV 15)) = some (0x00, 0x55) := by
  decide
-- LL-5
theorem test_move : after (.move 0 1) (regs [(1, 0x3C)]) (fun t => (t.getV 0, t.getV 1)) = some (0x3C, 0x3C) := by decide
-- LL-6
theorem test_or : after (.or 0 1) (regs [(0, 0x0F), (1, 0xF0), (15, 0x77)]) (fun t => (t.getV 0, t.getV 15)) =
    some (0xFF, 0x77) := by decide
-- the example of R125
theorem test_and : after (.and 0 1) (regs [(0, 0x3C), (1, 0x0F), (15, 0x77)]) (fun t => (t.getV 0, t.getV 15)) =
    some (0x0C, 0x77) := by decide
-- the example of R126
theorem test_xor : after (.xor 0 1) (regs [(0, 0x3C), (1, 0x0F), (15, 0x77)]) (fun t => (t.getV 0, t.getV 15)) =
    some (0x33, 0x77) := by decide

/-! ### Arithmetic with flags -/

-- AR-1, AR-2
theorem test_addr : after (.addr 0 1) (regs [(0, 0x12), (1, 0x34), (15, 9)]) (fun t => (t.getV 0, t.getV 15)) =
      some (0x46, 0) ∧
    after (.addr 0 1) (regs [(0, 0xFF), (1, 0x01)]) (fun t => (t.getV 0, t.getV 15)) = some (0x00, 1) := by decide
-- AV-1, AV-2
theorem test_addr_vf : after (.addr 15 1) (regs [(15, 0xFF), (1, 0x01)]) (·.getV 15) = some 0x02 ∧
    after (.addr 15 1) (regsLast [(15, 0xFF), (1, 0x01)]) (·.getV 15) = some 0x01 ∧
    after (.addr 1 15) (regs [(1, 0xFF), (15, 0x02)]) (fun t => (t.getV 1, t.getV 15)) = some (0x00, 1) ∧
    after (.addr 1 15) (regsLast [(1, 0xFF), (15, 0x02)]) (fun t => (t.getV 1, t.getV 15)) = some (0x01, 1) := by decide
-- AR-5, AR-6, AR-7
theorem test_sub : after (.sub 0 1) (regs [(0, 0x10), (1, 0x01)]) (fun t => (t.getV 0, t.getV 15)) = some (0x0F, 1) ∧
    after (.sub 0 1) (regs [(0, 0x01), (1, 0x10)]) (fun t => (t.getV 0, t.getV 15)) = some (0xF1, 0) ∧
    after (.sub 0 1) (regs [(0, 0x42), (1, 0x42)]) (fun t => (t.getV 0, t.getV 15)) = some (0x00, 1) := by decide
-- AV-4, AV-5
theorem test_sub_vf : after (.sub 15 1) (regs [(15, 0x05), (1, 0x03)]) (·.getV 15) = some 0xFE ∧
    after (.sub 15 1) (regsLast [(15, 0x05), (1, 0x03)]) (·.getV 15) = some 0x01 ∧
    after (.sub 1 15) (regs [(1, 0x05), (15, 0x03)]) (fun t => (t.getV 1, t.getV 15)) = some (0x04, 1) ∧
    after (.sub 1 15) (regsLast [(1, 0x05), (15, 0x03)]) (fun t => (t.getV 1, t.getV 15)) = some (0x02, 1) := by decide
-- AR-8, AR-9
theorem test_subn : after (.subn 0 1) (regs [(0, 0x01), (1, 0x10)]) (fun t => (t.getV 0, t.getV 15)) = some (0x0F, 1) ∧
    after (.subn 0 1) (regs [(0, 0x10), (1, 0x01)]) (fun t => (t.getV 0, t.getV 15)) = some (0xF1, 0) := by decide
-- AV-6, AV-7
theorem test_subn_vf : after (.subn 15 1) (regs [(15, 0x03), (1, 0x05)]) (·.getV 15) = some 0x04 ∧
    after (.subn 15 1) (regsLast [(15, 0x03), (1, 0x05)]) (·.getV 15) = some 0x01 ∧
    after (.subn 1 15) (regs [(1, 0x03), (15, 0x05)]) (fun t => (t.getV 1, t.getV 15)) = some (0xFE, 1) ∧
    after (.subn 1 15) (regsLast [(1, 0x03), (15, 0x05)]) (fun t => (t.getV 1, t.getV 15)) = some (0x02, 1) := by decide
-- AR-13, AR-12
theorem test_shr : after (.shr 3 4) (regs [(3, 0x02), (4, 0xFF)]) (fun t => (t.getV 3, t.getV 4, t.getV 15)) =
      some (0x01, 0xFF, 0) ∧
    after (.shr 0 0) (regs [(0, 0x01)]) (fun t => (t.getV 0, t.getV 15)) = some (0x00, 1) := by decide
-- AV-9
theorem test_shr_vf : after (.shr 15 0) (regs [(15, 0x03)]) (·.getV 15) = some 0x00 ∧
    after (.shr 15 0) (regsLast [(15, 0x03)]) (·.getV 15) = some 0x01 := by decide
-- AR-14, AR-15
theorem test_shl : after (.shl 0 4) (regs [(0, 0x80), (4, 0xFF)]) (fun t => (t.getV 0, t.getV 4, t.getV 15)) =
      some (0x00, 0xFF, 1) ∧
    after (.shl 0 0) (regs [(0, 0x01)]) (fun t => (t.getV 0, t.getV 15)) = some (0x02, 0) := by decide
-- AV-10
theorem test_shl_vf : after (.shl 15 0) (regs [(15, 0x81)]) (·.getV 15) = some 0x02 ∧
    after (.shl 15 0) (regsLast [(15, 0x81)]) (·.getV 15) = some 0x01 := by decide

/-! ### Index register and memory blocks -/

-- IM-1
theorem test_loadi : after (.loadi 0x123) entry (·.i) = some 0x123 := by decide
-- IM-2, IM-3
theorem test_addi : after (.addi 0) ((regs [(0, 1), (15, 0x5A)]).setI 0x0FFF) (fun t => (t.i, t.getV 15)) =
      some (0x1000, 0x5A) ∧
    after (.addi 0) ((regs [(0, 2)]).setI 0xFFFF) (·.i) = some 0x0001 := by decide
-- IM-4
theorem test_ldspr : after (.ldspr 0) (regs [(0, 0x0F)]) (·.i) = some 0x04B ∧
    after (.ldspr 0) (regs [(0, 0xFF)]) (·.i) = some 0x4FB := by decide
-- IM-5
theorem test_bcd : after (.bcd 0) ((regs [(0, 156)]).setI 0x300)
    (fun t => (t.memRead 0x300, t.memRead 0x301, t.memRead 0x302, t.i)) = some (0x01, 0x05, 0x06, 0x300) := by decide
-- IM-6
theorem test_bcd_range : failure (exec (.bcd 0) ((regs [(0, 7)]).setI 0xFFE)) = some (.memOutOfRange 0x1000) := by decide
-- IM-7
theorem test_stor : after (.stor 2) ((regs [(0, 0xAA), (1, 0xBB), (2, 0xCC), (3, 0xDD)]).setI 0x300)
    (fun t => (t.memReadBytes 0x300 4, t.i)) = some ([0xAA, 0xBB, 0xCC, 0x00], 0x303) := by decide
-- IM-9
theorem test_stor_range : failure (exec (.stor 15) (entry.setI 0xFF1)) = some (.memOutOfRange 0x1000) := by decide
-- IM-13 (the default FONT), IM-10 (registers above X stay)
theorem test_read : after (.read 4) (regs [(5, 0x11)])
    (fun t => (t.getV 0, t.getV 1, t.getV 4, t.getV 5, t.i)) = some (0xF0, 0x90, 0xF0, 0x11, 0x005) := by decide
-- IM-12
theorem test_read_range : failure (exec (.read 0) (entry.setI 0x2000)) = some (.memOutOfRange 0x2000) := by decide

/-! ### Display -/

-- DS-1
theorem test_cls : after .cls { regs [(15, 0x33)] with fb := togglePixel entry.fb 5 7 }
    (fun t => (t.pixel 5 7, t.getV 15)) = some (false, 0x33) := by decide
-- DS-2, DS-6: the upper half of a row, and a collision
theorem test_draw : after (.draw 0 1 1) (((regs [(15, 9)]).memWrite 0x300 0xF0).setI 0x300)
      (fun t => (row t 0 [0, 3, 4, 7], row t 1 [0], t.getV 15)) = some ([true, true, false, false], [false], 0) ∧
    after (.draw 0 1 1) { (entry.memWrite 0x300 0xC0).setI 0x300 with fb := togglePixel entry.fb 0 0 }
      (fun t => (row t 0 [0, 1], t.getV 15)) = some ([false, true], 1) := by decide
-- DS-8, DS-3, DS-9: both coordinates wrap, and the range check
theorem test_draw_wrap : after (.draw 0 1 2) ((((regs [(0, 62), (1, 255)]).memWrite 0x300 0xFF).memWrite 0x301 0x01).setI 0x300)
      (fun t => (row t 31 [61, 62, 63, 0, 5, 6], row t 0 [4, 5, 62])) =
      some ([false, true, true, true, true, false], [false, true, false]) ∧
    failure (exec (.draw 0 1 2) (entry.setI 0xFFF)) = some (.memOutOfRange 0x1000) := by decide
-- DS-7, DS-10
theorem test_draw_edge : after (.draw 0 1 0) ((regs [(15, 1)]).setI 0x2000) (·.getV 15) = some 0 ∧
    after (.draw 15 1 1) (((regs [(15, 8)]).memWrite 0x300 0x80).setI 0x300)
      (fun t => (row t 0 [0, 7, 8, 9], t.getV 15)) = some ([false, false, true, false], 0) := by decide

/-! ### Input, timers, randomness -/

-- IT-1, IT-3
theorem test_skpr : after (.skpr 5) { regs [(5, 0x0A)] with key := entry.key.set 10 true } (·.pc) = some 0x204 ∧
    after (.skpr 5) (regs [(5, 0x0A)]) (·.pc) = some 0x202 ∧
    failure (exec (.skpr 5) (regs [(5, 0x10)])) = some (.keyIndexOutOfRange 0x10) := by decide
-- IT-2, IT-3
theorem test_skup : after (.skup 5) { regs [(5, 0x0A)] with key := entry.key.set 10 true } (·.pc) = some 0x202 ∧
    after (.skup 5) (regs [(5, 0x0A)]) (·.pc) = some 0x204 ∧
    failure (exec (.skup 5) (regs [(5, 0x10)])) = some (.keyIndexOutOfRange 0x10) := by decide
-- IT-4, IT-5
theorem test_keyd_idle : after (.keyd 0) entry (fun t => (t.pc, t.kw, t.getV 0)) = some (0x200, .idle, 0) ∧
    after (.keyd 0) { entry with key := (entry.key.set 9 true).set 3 true } (fun t => (t.pc, t.kw, t.getV 0)) =
      some (0x200, .captured 3, 3) := by decide
-- IT-6, IT-7
theorem test_keyd_captured :
    after (.keyd 0) { entry with kw := .captured 3, key := entry.key.set 3 true } (fun t => (t.pc, t.kw)) =
      some (0x200, .captured 3) ∧
    after (.keyd 0) { entry with kw := .captured 3, key := entry.key.set 9 true } (fun t => (t.pc, t.kw, t.getV 0)) =
      some (0x202, .idle, 0) := by decide
-- IT-8, IT-9
theorem test_moved : tick { boot 0xF107 due with dt := 1 } (fun t => (t.dt, t.getV 1)) = some (0, 0) ∧
    tick { boot 0xF107 quiet with dt := 0x3C } (fun t => (t.dt, t.getV 1)) = some (0x3C, 0x3C) := by decide
-- the example of R165
theorem test_loadd : after (.loadd 2) (regs [(2, 5)]) (·.dt) = some 5 := by decide
-- IT-12, IT-11
theorem test_loads : after (.loads 2) (regs [(2, 1)]) (fun t => (t.st, t.soundEnable)) = some (1, true) ∧
    after (.loads 2) { entry with st := 5 } (fun t => (t.st, t.soundEnable)) = some (0, false) := by decide
-- RN-1, RN-2
theorem test_rand : tick (boot 0xC30F quiet) (·.getV 3) = some 0x07 ∧ tick (boot 0xC300 quiet) (·.getV 3) = some 0x00 := by
  decide

/-! ### Ticks -/

-- TM-1, TM-2, TM-3
theorem test_timer_phase :
    ({ entry with dt := 3, st := 1 }.timerPhase true).dt = 2 ∧ ({ entry with dt := 3, st := 1 }.timerPhase true).st = 0 ∧
    ({ entry with dt := 3, st := 1 }.timerPhase false).dt = 3 ∧ (entry.timerPhase true).dt = 0 := by decide
-- ER-1, ER-2
theorem test_illegal : tick (boot 0x0000 quiet) (fun t => (t.diagOutput, t.pc)) = some (some (1, 0x0000, 0x200), 0x202) ∧
    tick (boot 0xF0FF quiet) (fun t => (t.diagOutput, t.pc)) = some (some (1, 0xF0FF, 0x200), 0x202) := by decide
-- ER-3, CF-8
theorem test_fetch_range : failure (step (State.reset.setPc 0xFFF)) = some (.memOutOfRange 0x1000) ∧
    failure (step (State.reset.setPc 0x10FE)) = some (.memOutOfRange 0x10FE) := by decide
-- CF-15: an odd pc
theorem test_fetch_odd : tick ((State.reset.setPc 0x201).withInputs [quiet] |>.withFetchWord 16 0x1200) (·.pc) = some 0x200 := by
  decide
-- ER-4, TM-4
theorem test_halted : failure (step (State.reset.halted (.stackUnderflow 0x200))) = some (.stackUnderflow 0x200) ∧
    (State.reset.halted (.stackUnderflow 0x200)).fatalStatus = (3, some 0x200) := by decide
-- P5, ticks 1 and 2: a key event before a tick is seen by it
theorem test_key_event : tick (boot 0xF00A ⟨[⟨3, true⟩], false, 0⟩) (fun t => (t.getV 0, t.kw, t.pc)) =
    some (3, .captured 3, 0x200) := by decide
-- S-A, the first tick, with the program loaded by construction
theorem test_construct : (match State.construct defaultParams [0x60, 0x05, 0x61, 0x03] with
    | .ok s => tick (s.withInputs [quiet]) (fun t => (t.getV 0, t.pc, t.memRead 0x203))
    | .error _ => none) = some (5, 0x202, 0x03) := by decide
-- the default FONT: the digits 0 and F (appendix to D7)
theorem test_font : State.reset.memReadBytes 0 5 = [0xF0, 0x90, 0x90, 0x90, 0xF0] ∧
    State.reset.memReadBytes 0x4B 6 = [0xF0, 0x80, 0xF0, 0x80, 0x80, 0x00] := by decide
/-- With no input listed, the next tick's input is free, yet the word placed for the fetch is the one that runs. -/
theorem test_free_input_runs : tick (State.reset.withFetchWord 16 0x6005) (fun t => (t.getV 0, t.pc)) = some (5, 0x202) := by
  decide

/-! ### Witnesses: the hypotheses of each statement hold somewhere -/

/-- For every `EncodedAs`: a word that selects the row, for each row of the map. -/
theorem witness_EncodedAs : ∀ strict : Bool, ((opcodeMap strict).all fun r => r.selects r.value) = true := by decide

theorem witness_ResetLeavesTheValuesOfTheTable : 80 ≤ 0x050 ∧ ¬ 80 ≤ 0x04F := by decide
theorem witness_ConstructionLoadsOrRefusesTheProgram :
    (List.replicate 3584 (0 : Byte)).length ≤ 3584 ∧ 3584 < (List.replicate 3585 (0 : Byte)).length := by
  rw [List.length_replicate, List.length_replicate]; decide
theorem witness_StepRunsTheDecodedInstruction :
    (boot 0x6005 quiet).halt = .running ∧ (boot 0x6005 quiet).pc.toNat ≤ 0xFFE ∧
    decodeWord (boot 0x6005 quiet).params.strict59
      (wordOfBytes ((boot 0x6005 quiet).memRead (boot 0x6005 quiet).pc.toNat)
        ((boot 0x6005 quiet).memRead ((boot 0x6005 quiet).pc.toNat + 1))) = some (.load 0 5) := by decide
theorem witness_IllegalWordIsReportedAndSkipped :
    State.reset.halt = .running ∧ State.reset.pc.toNat ≤ 0xFFE ∧
    decodeWord State.reset.params.strict59
      (wordOfBytes (State.reset.memRead State.reset.pc.toNat) (State.reset.memRead (State.reset.pc.toNat + 1))) = none := by
  decide
theorem witness_FetchOutOfRangeIsFatal :
    (State.reset.setPc 0xFFF).halt = .running ∧ 0xFFE < (State.reset.setPc 0xFFF).pc.toNat ∧
    0xFFE < (State.reset.setPc 0x1000).pc.toNat := by decide
/-- For HaltedCoreNeverRuns, TickKeepsParametersAndConsumesOneInput and PcAfterATick: a tick that answers a next state. -/
theorem witness_step_next : ∃ t, step (boot 0x6005 quiet) = .next t := ⟨_, rfl⟩
theorem witness_TimerPhaseCountsDownToZeroFirst : State.reset.halt = .running ∧ State.reset.pc.toNat ≤ 0xFFE := by decide
theorem witness_LastKeyEventWins :
    ∃ (s : State) (inp : TickInput) (rest : List TickInput), s.inputs = inp :: rest ∧
      (inp.events = [⟨3, true⟩] ++ ⟨3, false⟩ :: [] ∧ (⟨3, false⟩ : KeyEvent).key = 3 ∧
        ∀ f ∈ ([] : List KeyEvent), f.key ≠ 3) ∧ (∀ f ∈ inp.events, f.key ≠ 4) :=
  ⟨State.reset.withInputs [⟨[⟨3, true⟩, ⟨3, false⟩], false, 0⟩], _, _, rfl, by decide, by decide⟩
theorem witness_FetchIsBigEndian : (State.reset.setPc 0xFFE).pc.toNat ≤ 0xFFE := by decide
theorem witness_DecodingFollowsTheOpcodeMap :
    (⟨"CLS", 0xFFFF, 0x00E0⟩ : OpcodeRow) ∈ opcodeMap false ∧ OpcodeRow.selects ⟨"CLS", 0xFFFF, 0x00E0⟩ 0x00E0 = true ∧
    decodeWord false 0x00E0 = some .cls := by decide
theorem witness_DecodeReadsBackEveryEncodedInstruction :
    (Instr.seReg 15 15 15).wellFormed false = true ∧ (Instr.seReg 0 0 1).wellFormed true = false := by decide
theorem witness_EncodeGivesBackEveryLegalWord : decodeWord true 0x9FF0 = some (.sneReg 15 15 0) := by decide
theorem witness_AssemblyLinesStandForTheirInstructions :
    disassemble (.load 15 0xFF) = some ⟨"LOAD", [.reg 15, .num 255]⟩ := by decide
theorem witness_JumpGoesToItsAddress : (0xFFF : Addr12).toNat = 0xFFF ∧ entry.halt = .running := by decide
theorem witness_CallPushesTheReturnAddress :
    ({ entry with sp := 15 } : State).sp.val < 16 ∧ ({ entry with sp := 16 } : State).sp.val = 16 ∧
    (15 : Fin 16).val = ({ entry with sp := 15 } : State).sp.val ∧ (0 : Fin 16).val ≠ ({ entry with sp := 15 } : State).sp.val := by
  decide
theorem witness_RetPopsTheReturnAddress :
    ({ entry with sp := 16 } : State).sp.val = (15 : Fin 16).val + 1 ∧ ({ entry with sp := 1 } : State).sp.val = (0 : Fin 16).val + 1 ∧
    entry.sp.val = 0 := by decide
theorem witness_RetUndoesCall : ({ entry with sp := 15 } : State).sp.val < 16 ∧
    ∃ t, exec (.call 0x300) { entry with sp := 15 } = .next t ∧ ∃ u : State, u.sp = t.sp ∧ u.stack = t.stack :=
  ⟨by decide, _, rfl, _, rfl, rfl⟩
theorem witness_JumpiAddsV0 : after (.jumpi 0xFFF) (regs [(0, 0xFF)]) (fun t => decide (0xFFE < t.pc.toNat)) = some true ∧
    (regs [(0, 0xFF)]).halt = .running := by decide
/-- For AddrAddsAndSetsCarry, SubSubtractsAndSetsNoBorrow, SubnSubtractsTheOtherWay and ShiftsMoveOneBitOut: VF and another
register as operand, under each order. -/
theorem witness_flag_orders : (regs []).params.vfOrder = .flagFirst ∧ (regsLast []).params.vfOrder = .flagLast ∧
    (15 : Reg) = 15 ∧ (14 : Reg) ≠ 15 := by decide
theorem witness_BcdStoresThreeDigits :
    (entry.setI 0xFFD).mem.wf (entry.setI 0xFFD).params = true ∧ (entry.setI 0xFFD).i.toNat + 2 ≤ 0xFFF ∧
    (entry.setI 0xFFE).mem.wf (entry.setI 0xFFE).params = true ∧ 0xFFF < (entry.setI 0xFFE).i.toNat + 2 := by decide
/-- For StorStoresTheBlock and ReadLoadsTheBlock: a block that ends with memory, and one that passes its end by one byte. -/
theorem witness_blocks :
    (entry.setI 0xFF0).mem.wf (entry.setI 0xFF0).params = true ∧ (entry.setI 0xFF0).i.toNat + (15 : Reg).val ≤ 0xFFF ∧
    (entry.setI 0xFF1).mem.wf (entry.setI 0xFF1).params = true ∧ 0xFFF < (entry.setI 0xFF1).i.toNat + (15 : Reg).val ∧
    (15 : Reg).val ≤ (15 : Reg).val ∧ (14 : Reg).val < (15 : Reg).val := by decide
theorem witness_FetchSeesStoredBytes :
    (entry.setI 0xFFE).mem.wf (entry.setI 0xFFE).params = true ∧ (entry.setI 0xFFE).i.toNat + (1 : Reg).val ≤ 0xFFF ∧
    ∃ t, exec (.stor 1) (entry.setI 0xFFE) = .next t ∧
      ∃ u : State, u.mem = t.mem ∧ u.params = t.params ∧ u.pc.toNat = (entry.setI 0xFFE).i.toNat + (0 : Reg).val :=
  ⟨by decide, by decide, _, rfl, { entry with pc := 0xFFE }, rfl, rfl, by decide⟩

/-- A state with the glyph "0" drawn at the origin; I points at the same glyph. -/
def glyphShown : State := { entry with fb := (drawRows 0 0 0 [0xF0] ⟨entry.fb, false⟩).fb }

theorem witness_DrawTogglesTheCoveredPixels :
    ((0 : Nibble).val = 0 ∧ (15 : Nibble).val ≠ 0 ∧ (entry.setI 0xFF1).i.toNat + (15 : Nibble).val ≤ 0x1000) ∧
    ((1 : Nibble).val ≠ 0 ∧ 0x1000 < (entry.setI 0x1000).i.toNat + (1 : Nibble).val) ∧
    (glyphShown.spriteCovers 0 0 1 3 0 ∧ glyphShown.pixel 3 0 = true ∧ ¬ glyphShown.spriteCovers 0 0 1 3 1) ∧
    (entry.spriteCovers 0 0 1 3 0 ∧ entry.pixel 3 0 = false) := by
  refine ⟨by decide, by decide, ⟨⟨0, 3, by decide⟩, by decide, ?_⟩, ⟨0, 3, by decide⟩, by decide⟩
  rintro ⟨r, c, hr, _, _, _, hy⟩
  have h1 : ((1 : Fin 32).val) = 1 := rfl
  have h0 : (0 : Byte).toNat = 0 := rfl
  omega
theorem witness_DrawTwiceRestoresTheFramebuffer :
    entry.i.toNat + (5 : Nibble).val ≤ 0x1000 ∧
    ∃ t, exec (.draw 0 1 5) entry = .next t ∧ ∃ u : State, u.fb = t.fb ∧ u.i = entry.i ∧
      (∀ a, u.memRead a = entry.memRead a) ∧ u.getV 0 = entry.getV 0 ∧ u.getV 1 = entry.getV 1 :=
  ⟨by decide, _, rfl, { entry with fb := _ }, rfl, rfl, fun _ => rfl, rfl, rfl⟩
theorem witness_NothingButDrawLightsAPixel :
    (∀ i ∈ [Instr.seImm 0 0], ∀ x y n, i ≠ .draw x y n) ∧ ∃ t, execAll [.cls, .seImm 0 0] entry = .next t :=
  ⟨by simp, _, rfl⟩
theorem witness_KeySkips : ((regs [(5, 15)]).getV 5).toNat = (15 : Fin 16).val ∧ 15 < ((regs [(5, 16)]).getV 5).toNat := by decide
theorem witness_KeydCapturesThenWaitsForTheRelease :
    (entry.kw = .idle ∧ (∀ k : Fin 16, entry.key[k] = false) ∧ entry.params.keydPick = .lowest) ∧
    (∃ k : Fin 16, ({ entry with key := entry.key.set 15 true } : State).key[k] = true) ∧
    (({ entry with kw := .captured 3, key := entry.key.set 3 true } : State).kw = .captured 3 ∧
      ({ entry with kw := .captured 3, key := entry.key.set 3 true } : State).key[(3 : Fin 16)] = true) ∧
    (({ entry with kw := .captured 3 } : State).kw = .captured 3 ∧
      ({ entry with kw := .captured 3 } : State).key[(3 : Fin 16)] = false) := by decide
theorem witness_RandMasksTheDrawnByte : (boot 0xC30F quiet).inputs = quiet :: [] := rfl
theorem witness_OnlyFlagInstructionsTouchVf :
    after (.addr 0 1) (regs [(0, 0xFF), (1, 1)]) (fun t => decide (t.getV 15 ≠ (regs [(0, 0xFF), (1, 1)]).getV 15)) = some true := by
  decide
/-- For OnlyDrawAndClsTouchTheFramebuffer, OnlyKeydTouchesTheLatch, KeyTableIsReadOnlyToTheCore,
TimersAreTouchedOnlyByTheirInstructions, IndexRegisterUse, DeadStackEntriesAreUnobservable and OnlyRandSeesTheRandomByte:
LOAD is none of the instructions they except, and it runs. -/
theorem witness_other_instruction :
    (∃ t, exec (.load 0 5) entry = .next t) ∧ (∀ x y n, Instr.load 0 5 ≠ .draw x y n) ∧ Instr.load 0 5 ≠ .cls ∧
    (∀ x, Instr.load 0 5 ≠ .keyd x ∧ Instr.load 0 5 ≠ .skpr x ∧ Instr.load 0 5 ≠ .skup x) ∧
    (∀ x, Instr.load 0 5 ≠ .loadd x ∧ Instr.load 0 5 ≠ .moved x ∧ Instr.load 0 5 ≠ .loads x) ∧
    (∀ n x, Instr.load 0 5 ≠ .loadi n ∧ Instr.load 0 5 ≠ .addi x ∧ Instr.load 0 5 ≠ .ldspr x ∧ Instr.load 0 5 ≠ .stor x ∧
      Instr.load 0 5 ≠ .read x ∧ Instr.load 0 5 ≠ .bcd x) ∧
    (∀ n, Instr.load 0 5 ≠ .call n) ∧ Instr.load 0 5 ≠ .ret ∧ (∀ x nn, Instr.load 0 5 ≠ .rand x nn) ∧
    ∃ x, Instr.loads 0 = .loads x := by
  refine ⟨⟨_, rfl⟩, ?_⟩
  simp
theorem witness_DeadStackEntriesAreUnobservable :
    (∀ k : Fin 16, k.val < (boot 0x6005 quiet).sp.val → ((boot 0x6005 quiet).stack.set 0 0x123)[k] = (boot 0x6005 quiet).stack[k]) ∧
    (∃ t, step (boot 0x6005 quiet) = .next t) ∧ ∃ r, step (boot 0x00EE quiet) = .fault r :=
  ⟨fun _ hk => absurd hk (Nat.not_lt_zero _), ⟨_, rfl⟩, _, rfl⟩
theorem witness_CanonicalMemoriesAreUnique :
    Memory.wf defaultParams [(0x300, 1)] = true ∧
    ∀ a, Memory.read defaultParams [(0x300, 1)] a = Memory.read defaultParams [(0x300, 1)] a := ⟨by decide, fun _ => rfl⟩
theorem witness_EveryTickKeepsMemoryPcAndStackSound :
    (boot 0x6005 quiet).Inv ∧ (∃ t, step (boot 0x6005 quiet) = .next t) ∧ ∃ t, core.run 1 (boot 0x6005 quiet) = .next t :=
  ⟨⟨by decide, by decide, fun _ hk => absurd hk (Nat.not_lt_zero _)⟩, ⟨_, rfl⟩, _, rfl⟩

/-- KEYD V0 at 0x200 has captured key 3, which is still pressed. -/
def waiting : State := { (boot 0xF00A quiet).setV 0 3 with kw := .captured 3, key := entry.key.set 3 true }

theorem witness_EveryTickKeepsTheKeyWaitSound : waiting.KeyWaitInv ∧ ∃ t, step waiting = .next t := by
  refine ⟨?_, _, rfl⟩
  intro _ hk
  cases hk
  exact ⟨0xF00A, 0, rfl, by decide, by decide⟩

end Sys2Proof.Tests
end

section
/-! The tick: what `step` answers in each of its four cases. -/

namespace Sys2Proof.Machine

open Sys2Proof.Config

/-- The word a tick of `s` fetches: the two bytes at pc, big-endian (20_memory.md R51). -/
def State.fetchedWord (s : State) : Word := wordOfBytes (s.memRead s.pc.toNat) (s.memRead (s.pc.toNat + 1))

/-- The state a tick hands to `exec`: the start of the tick is done and pc is past the word (30_encoding.md R76). -/
def State.entryState (s : State) : State := s.beginTick.setPc (s.pc + 2)

variable {s t : State} {i : Instr} {r : Fault}

theorem entryState_pc_toNat (h : s.canFetch) : s.entryState.pc.toNat = s.pc.toNat + 2 := by
  have : s.pc.toNat ≤ 0xFFE := h
  change (s.pc + 2).toNat = _
  rw [BitVec.toNat_add, show (2 : Word).toNat = 2 from rfl]
  omega

theorem entryState_pc_add_two (h : s.canFetch) : (s.entryState.pc + 2).toNat = s.pc.toNat + 4 := by
  have hle : s.pc.toNat ≤ 0xFFE := h
  rw [BitVec.toNat_add, entryState_pc_toNat h, show (2 : Word).toNat = 2 from rfl]
  omega

theorem entryState_pc_sub_two (s : State) : s.entryState.pc - 2 = s.pc := by
  change s.pc + 2 - 2 = s.pc
  rw [BitVec.add_sub_cancel]

theorem step_of_halted (h : s.halt = .halted r) : step s = .fault r := by
  simp only [step, h]; rfl

theorem step_of_not_canFetch (hr : s.halt = .running) (h : ¬ s.canFetch) :
    step s = .fault (.memOutOfRange (max s.pc.toNat memSize)) := by
  simp only [step, hr, fetch_beginTick, fetch_error s h]; rfl

theorem step_of_illegal (hr : s.halt = .running) (h : s.canFetch)
    (hd : decodeWord s.params.strict59 s.fetchedWord = none) :
    step s = .next (s.entryState.reportIllegal s.fetchedWord s.pc) := by
  rw [State.fetchedWord] at hd
  simp only [step, hr, fetch_beginTick, fetch_ok s h, hd]; rfl

theorem step_of_decoded (hr : s.halt = .running) (h : s.canFetch)
    (hd : decodeWord s.params.strict59 s.fetchedWord = some i) : step s = exec i s.entryState := by
  rw [State.fetchedWord] at hd
  simp only [step, hr, fetch_beginTick, fetch_ok s h, hd]; rfl

/-- The four kinds of a tick, told apart by the state before it. -/
theorem step_kinds (s : State) :
    (∃ r, s.halt = .halted r) ∨ (s.halt = .running ∧ ¬ s.canFetch) ∨
    (s.halt = .running ∧ s.canFetch ∧ decodeWord s.params.strict59 s.fetchedWord = none) ∨
    ∃ i, s.halt = .running ∧ s.canFetch ∧ decodeWord s.params.strict59 s.fetchedWord = some i := by
  cases hh : s.halt with
  | halted r => exact .inl ⟨r, rfl⟩
  | running =>
    by_cases hc : s.canFetch
    · cases hd : decodeWord s.params.strict59 s.fetchedWord with
      | none => exact .inr (.inr (.inl ⟨rfl, hc, rfl⟩))
      | some i => exact .inr (.inr (.inr ⟨i, rfl, hc, rfl⟩))
    · exact .inr (.inl ⟨rfl, hc⟩)

/-- A tick that answers a next state fetched in range, and reported an illegal word or executed an instruction. -/
theorem step_next (h : step s = .next t) :
    s.canFetch ∧
      ((decodeWord s.params.strict59 s.fetchedWord = none ∧ t = s.entryState.reportIllegal s.fetchedWord s.pc) ∨
        ∃ i, decodeWord s.params.strict59 s.fetchedWord = some i ∧ exec i s.entryState = .next t) := by
  rcases step_kinds s with ⟨r, hh⟩ | ⟨hr, hc⟩ | ⟨hr, hc, hd⟩ | ⟨i, hr, hc, hd⟩
  · rw [step_of_halted hh] at h; cases h
  · rw [step_of_not_canFetch hr hc] at h; cases h
  · rw [step_of_illegal hr hc hd] at h; cases h; exact ⟨hc, .inl ⟨hd, rfl⟩⟩
  · rw [step_of_decoded hr hc hd] at h; exact ⟨hc, .inr ⟨i, hd, h⟩⟩

end Sys2Proof.Machine
end

section
/-! CALL, RET and the key skips, told apart by what they may do: where they complete, and what they then leave. -/

namespace Sys2Proof.Machine

variable {s t : State}

theorem execCall_of_lt (nnn : Addr12) (h : s.sp.val < 16) : execCall nnn s =
    .next { s with stack := s.stack.set s.sp.val s.pc, sp := ⟨s.sp.val + 1, by omega⟩, pc := zext16 nnn } :=
  (execCall_cases s nnn).elim (fun ⟨_, e⟩ => e) fun ⟨hf, _⟩ => absurd h (by omega)

theorem execCall_of_not_lt (nnn : Addr12) (h : ¬ s.sp.val < 16) : execCall nnn s = .fault (.stackOverflow (s.pc - 2)) :=
  (execCall_cases s nnn).elim (fun ⟨hl, _⟩ => absurd hl h) fun ⟨_, e⟩ => e

theorem execRet_of_ne (h : s.sp.val ≠ 0) : execRet s =
    .next { s with sp := ⟨s.sp.val - 1, by omega⟩, pc := s.stack[s.sp.val - 1] } :=
  (execRet_cases s).elim (fun ⟨_, e⟩ => e) fun ⟨h0, _⟩ => absurd h0 h

theorem execRet_of_eq (h : s.sp.val = 0) : execRet s = .fault (.stackUnderflow (s.pc - 2)) :=
  (execRet_cases s).elim (fun ⟨hn, _⟩ => absurd h hn) fun ⟨_, e⟩ => e

theorem execCall_next {nnn : Addr12} (h : execCall nnn s = .next t) : ∃ _ : s.sp.val < 16,
    t = { s with stack := s.stack.set s.sp.val s.pc, sp := ⟨s.sp.val + 1, by omega⟩, pc := zext16 nnn } := by
  rcases execCall_cases s nnn with ⟨h16, e⟩ | ⟨_, e⟩ <;> cases e.symm.trans h
  exact ⟨h16, rfl⟩

theorem execRet_next (h : execRet s = .next t) : ∃ _ : s.sp.val ≠ 0,
    t = { s with sp := ⟨s.sp.val - 1, by omega⟩, pc := s.stack[s.sp.val - 1] } := by
  rcases execRet_cases s with ⟨h0, e⟩ | ⟨_, e⟩ <;> cases e.symm.trans h
  exact ⟨h0, rfl⟩

theorem execSkpr_next {x : Reg} (h : execSkpr x s = .next t) : ∃ c, t = s.skipIf c := by
  rcases execSkpr_cases s x with ⟨_, _, e⟩ | ⟨_, e⟩ <;> cases e.symm.trans h
  exact ⟨_, rfl⟩

theorem execSkup_next {x : Reg} (h : execSkup x s = .next t) : ∃ c, t = s.skipIf c := by
  rcases execSkup_cases s x with ⟨_, _, e⟩ | ⟨_, e⟩ <;> cases e.symm.trans h
  exact ⟨_, rfl⟩

theorem skipIf_pc (s : State) (c : Bool) : (s.skipIf c).pc = s.pc ∨ (s.skipIf c).pc = s.pc + 2 := by
  cases c
  · exact .inl rfl
  · exact .inr rfl

end Sys2Proof.Machine
end

section
/-! What each instruction may write, and so which instructions leave an element of the state as it is. -/

namespace Sys2Proof.Machine

open Sys2Proof.Config

/-- The elements of the state the instruction may write: every other one is in `t` as in `s`. -/
def ExecFrame (i : Instr) (s t : State) : Prop :=
  match i with
  | .cls => t = { s with fb := t.fb }
  | .ret => t = { s with sp := t.sp, pc := t.pc }
  | .call _ => t = { s with stack := t.stack, sp := t.sp, pc := t.pc }
  | .jump _ | .jumpi _ | .seImm _ _ | .sneImm _ _ | .seReg _ _ _ | .sneReg _ _ _ | .skpr _ | .skup _ =>
    t = { s with pc := t.pc }
  | .load _ _ | .add _ _ | .move _ _ | .or _ _ | .and _ _ | .xor _ _ | .addr _ _ | .sub _ _ | .shr _ _ | .subn _ _
  | .shl _ _ | .rand _ _ | .moved _ => t = { s with v := t.v }
  | .loadi _ | .addi _ | .ldspr _ => t = { s with i := t.i }
  | .draw _ _ _ => t = { s with fb := t.fb, v := t.v }
  | .keyd _ => t = { s with v := t.v, kw := t.kw, pc := t.pc }
  | .loadd _ => t = { s with dt := t.dt }
  | .loads _ => t = { s with st := t.st }
  | .bcd _ => t = { s with mem := t.mem }
  | .stor _ => t = { s with mem := t.mem, i := t.i }
  | .read _ => t = { s with v := t.v, i := t.i }

variable {s t : State} {i : Instr}

/-- A completed instruction wrote nothing outside its frame. -/
theorem exec_frame (h : exec i s = .next t) : ExecFrame i s t := by
  cases i with
  | ret => obtain ⟨_, rfl⟩ := execRet_next h; rfl
  | call nnn => obtain ⟨_, rfl⟩ := execCall_next h; rfl
  | skpr x => obtain ⟨_, rfl⟩ := execSkpr_next h; rfl
  | skup x => obtain ⟨_, rfl⟩ := execSkup_next h; rfl
  | keyd x =>
    cases h
    rcases keyWait_cases s x with ⟨_, _, e⟩ | ⟨_, _, _, _, e⟩ | ⟨_, _, _, e⟩ | ⟨_, _, _, e⟩ <;> rw [e] <;> rfl
  | draw x y n => obtain ⟨_, rfl⟩ := checkedRange_next h; rfl
  | bcd x => obtain ⟨_, rfl⟩ := checkedRange_next h; exact memWriteBytes_frame ..
  | stor x => obtain ⟨_, rfl⟩ := checkedRange_next h; exact storeRegs_frame ..
  | read x => obtain ⟨_, rfl⟩ := checkedRange_next h; exact loadRegs_frame ..
  | addr x y | sub x y | shr x y | subn x y | shl x y => cases h; exact writeFlagged_frame ..
  | _ => cases h; rfl

theorem exec_params (h : exec i s = .next t) : t.params = s.params := by
  cases i <;> exact (congrArg State.params (exec_frame h) :)

theorem exec_stack (h : exec i s = .next t) (hi : ∀ n, i ≠ .call n) : t.stack = s.stack := by
  cases i with
  | call n => exact absurd rfl (hi n)
  | _ => exact (congrArg State.stack (exec_frame h) :)

theorem exec_mem (h : exec i s = .next t) (hb : ∀ x, i ≠ .bcd x) (hs : ∀ x, i ≠ .stor x) : t.mem = s.mem := by
  cases i with
  | bcd x => exact absurd rfl (hb x)
  | stor x => exact absurd rfl (hs x)
  | _ => exact (congrArg State.mem (exec_frame h) :)

theorem exec_sp (h : exec i s = .next t) (hc : ∀ n, i ≠ .call n) (hr : i ≠ .ret) : t.sp = s.sp := by
  cases i with
  | call n => exact absurd rfl (hc n)
  | ret => exact absurd rfl hr
  | _ => exact (congrArg State.sp (exec_frame h) :)

theorem exec_i (h : exec i s = .next t)
    (hi : ∀ n x, i ≠ .loadi n ∧ i ≠ .addi x ∧ i ≠ .ldspr x ∧ i ≠ .stor x ∧ i ≠ .read x) :
    t.i = s.i := by
  cases i with
  | loadi | addi | ldspr | stor | read => simp at hi
  | _ => exact (congrArg State.i (exec_frame h) :)

theorem exec_fb (h : exec i s = .next t) (hc : i ≠ .cls) (hd : ∀ x y n, i ≠ .draw x y n) : t.fb = s.fb := by
  cases i with
  | cls => exact absurd rfl hc
  | draw x y n => exact absurd rfl (hd x y n)
  | _ => exact (congrArg State.fb (exec_frame h) :)

theorem exec_kw (h : exec i s = .next t) (hk : ∀ x, i ≠ .keyd x) : t.kw = s.kw := by
  cases i with
  | keyd x => exact absurd rfl (hk x)
  | _ => exact (congrArg State.kw (exec_frame h) :)

theorem exec_key (h : exec i s = .next t) : t.key = s.key := by
  cases i <;> exact (congrArg State.key (exec_frame h) :)

theorem exec_dt (h : exec i s = .next t) (hd : ∀ x, i ≠ .loadd x) : t.dt = s.dt := by
  cases i with
  | loadd x => exact absurd rfl (hd x)
  | _ => exact (congrArg State.dt (exec_frame h) :)

theorem exec_st (h : exec i s = .next t) (hs : ∀ x, i ≠ .loads x) : t.st = s.st := by
  cases i with
  | loads x => exact absurd rfl (hs x)
  | _ => exact (congrArg State.st (exec_frame h) :)

theorem exec_diag (h : exec i s = .next t) : t.diag = s.diag := by
  cases i <;> exact (congrArg State.diag (exec_frame h) :)

theorem exec_inputs (h : exec i s = .next t) : t.inputs = s.inputs := by
  cases i <;> exact (congrArg State.inputs (exec_frame h) :)

theorem exec_tickNo (h : exec i s = .next t) : t.tickNo = s.tickNo := by
  cases i <;> exact (congrArg State.tickNo (exec_frame h) :)

end Sys2Proof.Machine
end

section
/-! Where pc can go, and the invariant of memory, pc and the stack along every run. -/

namespace Sys2Proof.Machine

open Sys2Proof.Config

variable {s t : State} {i : Instr}

/-- The values the instruction may leave in pc, given the state it executes on (10_state.md R25). -/
def ExecPc (i : Instr) (s : State) (pc : Word) : Prop :=
  match i with
  | .seImm _ _ | .sneImm _ _ | .seReg _ _ _ | .sneReg _ _ _ | .skpr _ | .skup _ => pc = s.pc ∨ pc = s.pc + 2
  | .keyd _ => pc = s.pc ∨ pc = s.pc - 2
  | .jump nnn | .call nnn => pc = zext16 nnn
  | .jumpi nnn => pc = zext16 (s.getV 0) + zext16 nnn
  | .ret => ∃ k : Fin 16, s.sp.val = k.val + 1 ∧ pc = s.stack[k]
  | _ => pc = s.pc

/-- A completed instruction left one of its own values in pc. -/
theorem exec_pc (h : exec i s = .next t) : ExecPc i s t.pc := by
  cases i with
  | jump nnn | jumpi nnn => cases h; rfl
  | call nnn => obtain ⟨_, rfl⟩ := execCall_next h; rfl
  | ret =>
    obtain ⟨h0, rfl⟩ := execRet_next h
    exact ⟨⟨s.sp.val - 1, by omega⟩, (Nat.sub_add_cancel (Nat.pos_of_ne_zero h0)).symm, rfl⟩
  | skpr x => obtain ⟨c, rfl⟩ := execSkpr_next h; exact skipIf_pc s c
  | skup x => obtain ⟨c, rfl⟩ := execSkup_next h; exact skipIf_pc s c
  | seImm | sneImm | seReg | sneReg => cases h; exact skipIf_pc ..
  | keyd x =>
    cases h
    rcases keyWait_cases s x with ⟨_, _, e⟩ | ⟨_, _, _, _, e⟩ | ⟨_, _, _, e⟩ | ⟨_, _, _, e⟩ <;> rw [e]
    · exact .inr rfl
    · exact .inr rfl
    · exact .inr rfl
    · exact .inl rfl
  | _ => exact (congrArg State.pc (exec_frame h) :)

/-- No instruction takes memory out of its canonical form: BCD and STOR write only inside 0 to 0xFFF (20_memory.md R53). -/
theorem exec_wf (h : exec i s = .next t) (hw : s.mem.wf s.params = true) : t.mem.wf t.params = true := by
  rw [exec_params h]
  cases i with
  | bcd x =>
    obtain ⟨hr, rfl⟩ := checkedRange_next h
    exact memWriteBytes_wf s _ _ hw (by simpa [bcdDigits] using hr)
  | stor x =>
    obtain ⟨hr, rfl⟩ := checkedRange_next h
    exact storeRegs_wf s _ (by simpa [length_blockRegs, State.dataBase] using hr) hw
  | _ => rwa [exec_mem h (by simp) (by simp)]

/-- CALL pushes pc, RET drops the last entry, and nothing else moves the stack: the live entries stay return addresses. -/
theorem exec_stackOk (h : exec i s = .next t) (hs : s.stackOk) (hp : s.pc.toNat ≤ 0x1000) : t.stackOk := by
  intro k hk
  cases i with
  | call nnn =>
    obtain ⟨h16, rfl⟩ := execCall_next h
    change (s.stack.set s.sp.val s.pc h16)[k.val].toNat ≤ 0x1000
    rw [Vector.getElem_set]
    split
    · exact hp
    next hne => exact hs k (by change k.val < s.sp.val + 1 at hk; omega)
  | ret =>
    obtain ⟨_, rfl⟩ := execRet_next h
    exact hs k (by change k.val < s.sp.val - 1 at hk; omega)
  | _ =>
    rw [exec_sp h (by simp) (by simp)] at hk
    rw [exec_stack h (by simp)]
    exact hs k hk

/-- After a skip of a tick that fetched in range, pc is 2 or 4 past the skip. -/
theorem skip_pc_toNat (h : s.canFetch) (hp : t.pc = s.entryState.pc ∨ t.pc = s.entryState.pc + 2) :
    t.pc.toNat = s.pc.toNat + 2 ∨ t.pc.toNat = s.pc.toNat + 4 := by
  rcases hp with hp | hp <;> rw [hp]
  · exact .inl (entryState_pc_toNat h)
  · exact .inr (entryState_pc_add_two h)

theorem zext16_toNat {n : Nat} (b : BitVec n) (h : n ≤ 16) : (zext16 b).toNat = b.toNat := by
  rw [zext16, BitVec.toNat_setWidth_of_le h]

theorem jumpi_pc_toNat (b : Byte) (nnn : Addr12) : (zext16 b + zext16 nnn).toNat = b.toNat + nnn.toNat := by
  rw [BitVec.toNat_add, zext16_toNat b (by omega), zext16_toNat nnn (by omega)]
  omega

/-- Settles O55: the instruction the tick executed decides which value it may leave in pc (`exec_pc`). -/
theorem pcAfterATick : Obligations.PcAfterATick := by
  intro s t h
  obtain ⟨hc, ⟨-, rfl⟩ | ⟨i, hd, he⟩⟩ := step_next h
  · exact .inl (entryState_pc_toNat hc)
  have hp := exec_pc he
  cases i with
  | seImm x nn | sneImm x nn =>
    exact (skip_pc_toNat hc hp).imp_right fun h4 => ⟨_, hd, .inl ⟨x, 0, 0, nn, by simp, h4⟩⟩
  | seReg x y n | sneReg x y n =>
    exact (skip_pc_toNat hc hp).imp_right fun h4 => ⟨_, hd, .inl ⟨x, y, n, 0, by simp, h4⟩⟩
  | skpr x | skup x =>
    exact (skip_pc_toNat hc hp).imp_right fun h4 => ⟨_, hd, .inl ⟨x, 0, 0, 0, by simp, h4⟩⟩
  | keyd x =>
    rcases hp with hp | hp
    · exact .inl (hp ▸ entryState_pc_toNat hc)
    · exact .inr ⟨_, hd, .inr (.inl ⟨x, rfl, hp.trans (entryState_pc_sub_two s)⟩)⟩
  | jump nnn | call nnn =>
    have hp : t.pc = zext16 nnn := hp
    exact .inr ⟨_, hd, .inr (.inr (.inl ⟨nnn, by simp, by rw [hp, zext16_toNat nnn (by omega)]⟩))⟩
  | jumpi nnn =>
    have hp : t.pc = zext16 (s.getV 0) + zext16 nnn := hp
    exact .inr ⟨_, hd, .inr (.inr (.inr (.inl ⟨nnn, rfl, by rw [hp, jumpi_pc_toNat]⟩)))⟩
  | ret =>
    obtain ⟨k, hk, hp⟩ := hp
    exact .inr ⟨_, hd, .inr (.inr (.inr (.inr ⟨k, rfl, hk, hp⟩)))⟩
  | _ => exact .inl ((congrArg BitVec.toNat hp).trans (entryState_pc_toNat hc))

/-- No tick takes pc above 0x10FE: JUMPI reaches 255 + 4095, everything else stays at or below 0x1002 (10_state.md R26). -/
theorem step_pc_le (h : step s = .next t) (hs : s.stackOk) : t.pc.toNat ≤ 0x10FE := by
  have hc : s.pc.toNat ≤ 0xFFE := (step_next h).1
  rcases pcAfterATick s t h with
    hp | ⟨i, -, ⟨_, _, _, _, -, hp⟩ | ⟨_, -, hp⟩ | ⟨nnn, -, hp⟩ | ⟨nnn, -, hp⟩ | ⟨k, -, hk, hp⟩⟩
  · omega
  · omega
  · rw [hp]; omega
  · omega
  · have := (s.getV 0).isLt; omega
  · have := hs k (by omega)
    rw [hp]; omega

theorem step_inv (hi : s.Inv) (h : step s = .next t) : t.Inv := by
  obtain ⟨hw, -, hs⟩ := hi
  have hpc := step_pc_le h hs
  obtain ⟨hc, ⟨-, rfl⟩ | ⟨i, -, he⟩⟩ := step_next h
  · exact ⟨hw, hpc, hs⟩
  · have hle : s.entryState.pc.toNat ≤ 0x1000 := by
      rw [entryState_pc_toNat hc]; exact Nat.add_le_add_right hc 2
    exact ⟨exec_wf he hw, hpc, exec_stackOk he hs hle⟩

/-- A predicate every tick keeps holds after every run from a state where it holds. -/
theorem run_keeps {M : Host.Core} {P : M.State → Prop} (hP : ∀ s t, P s → M.step s = .next t → P t) :
    ∀ (n : Nat) (s t : M.State), P s → M.run n s = .next t → P t := by
  intro n
  induction n with
  | zero => intro s t hs h; cases h; exact hs
  | succ n ih =>
    intro s t hs h
    rw [Host.Core.run] at h
    split at h
    next u hu => exact ih u t (hP s u hs hu) h
    next => cases h
    next => cases h

/-- Settles O58: a tick keeps the invariant (`step_inv`), so a run does, by induction on its length. -/
theorem everyTickKeepsMemoryPcAndStackSound : Obligations.EveryTickKeepsMemoryPcAndStackSound :=
  ⟨fun _ _ => step_inv, run_keeps (M := core) (P := State.Inv) fun _ _ => step_inv⟩

end Sys2Proof.Machine
end

section
/-! What each instruction may read or write outside memory, the data registers, SP and pc: an instruction cannot tell
whether the elements it does not use were replaced, and leaves the replacements in place. -/

namespace Sys2Proof.Machine

open Sys2Proof.Config

/-- Values to put in place of some elements of the state: each is a new value, or none to leave the element as it is. -/
structure Overlay where
  i : Option Word := none
  stack : Option (Vector Word 16) := none
  dt : Option Byte := none
  st : Option Byte := none
  fb : Option Frame := none
  key : Option (Vector Bool 16) := none
  kw : Option KeyWait := none
  randByte : Option Byte := none

/-- The state with the elements that `o` replaces replaced. -/
def State.overlay (s : State) (o : Overlay) : State :=
  { s with
    i := o.i.getD s.i
    stack := o.stack.getD s.stack
    dt := o.dt.getD s.dt
    st := o.st.getD s.st
    fb := o.fb.getD s.fb
    key := o.key.getD s.key
    kw := o.kw.getD s.kw
    randByte := o.randByte.getD s.randByte }

/-- The overlay replaces no element that the instruction reads or writes (10_state.md R24 to R34). -/
def Overlay.avoids (o : Overlay) (i : Instr) : Prop :=
  match i with
  | .cls => o.fb = none
  | .draw _ _ _ => o.i = none ∧ o.fb = none
  | .ret | .call _ => o.stack = none
  | .skpr _ | .skup _ => o.key = none
  | .keyd _ => o.key = none ∧ o.kw = none
  | .moved _ | .loadd _ => o.dt = none
  | .loads _ => o.st = none
  | .rand _ _ => o.randByte = none
  | .loadi _ | .addi _ | .ldspr _ | .bcd _ | .stor _ | .read _ => o.i = none
  | _ => True

variable {s t : State} {o : Overlay} {i : Instr}

theorem writeFlagged_overlay (x y : Reg) (flag result : Byte → Byte → Byte) :
    (s.overlay o).writeFlagged x y flag result = (s.writeFlagged x y flag result).overlay o := by
  simp only [State.writeFlagged, show (s.overlay o).params = s.params from rfl]
  split <;> rfl

theorem memWriteBytes_overlay (a : Nat) (bs : List Byte) :
    (s.overlay o).memWriteBytes a bs = (s.memWriteBytes a bs).overlay o := by
  induction bs generalizing s a with
  | nil => rfl
  | cons b bs ih => exact ih (s := s.memWrite a b) (a + 1)

theorem overlay_i (h : o.i = none) : (s.overlay o).i = s.i := by
  rw [State.overlay, h]; rfl

theorem setI_overlay (h : o.i = none) (w : Word) : (s.overlay o).setI w = (s.setI w).overlay o := by
  simp only [State.overlay, State.setI, h]; rfl

theorem storeRegs_overlay (h : o.i = none) (rs : List Reg) : (s.overlay o).storeRegs rs = (s.storeRegs rs).overlay o := by
  induction rs generalizing s with
  | nil => rfl
  | cons r rs ih =>
    rw [State.storeRegs, State.storeRegs, ← ih, ← setI_overlay h, overlay_i h]
    rfl

theorem loadRegs_overlay (h : o.i = none) (rs : List Reg) : (s.overlay o).loadRegs rs = (s.loadRegs rs).overlay o := by
  induction rs generalizing s with
  | nil => rfl
  | cons r rs ih =>
    rw [State.loadRegs, State.loadRegs, ← ih, ← setI_overlay h, overlay_i h]
    rfl

theorem onNext_checkedRange (f : State → State) (base n : Nat) (t : State) :
    onNext f (checkedRange base n t) = checkedRange base n (f t) := by
  unfold checkedRange
  split <;> rfl

theorem overlay_key (h : o.key = none) : (s.overlay o).key = s.key := by
  rw [State.overlay, h]; rfl

theorem overlay_kw (h : o.kw = none) : (s.overlay o).kw = s.kw := by
  rw [State.overlay, h]; rfl

theorem execSkpr_overlay (h : o.key = none) (x : Reg) :
    execSkpr x (s.overlay o) = onNext (·.overlay o) (execSkpr x s) := by
  simp only [execSkpr, overlay_key h, show (s.overlay o).keyOperand x = s.keyOperand x from rfl]
  split <;> rfl

theorem execSkup_overlay (h : o.key = none) (x : Reg) :
    execSkup x (s.overlay o) = onNext (·.overlay o) (execSkup x s) := by
  simp only [execSkup, overlay_key h, show (s.overlay o).keyOperand x = s.keyOperand x from rfl]
  split <;> rfl

theorem keyWait_overlay (hk : o.key = none) (hw : o.kw = none) (x : Reg) :
    (s.overlay o).keyWait x = (s.keyWait x).overlay o := by
  obtain ⟨_, _, _, _, _, _, _, _⟩ := o
  cases hk
  cases hw
  simp only [State.keyWait, overlay_key, overlay_kw, show ∀ o, (s.overlay o).params = s.params from fun _ => rfl]
  split <;> split <;> rfl

theorem execCall_overlay (h : o.stack = none) (nnn : Addr12) :
    execCall nnn (s.overlay o) = onNext (·.overlay o) (execCall nnn s) := by
  obtain ⟨_, _, _, _, _, _, _, _⟩ := o
  cases h
  by_cases h16 : s.sp.val < 16
  · rw [execCall_of_lt nnn h16]; exact execCall_of_lt (s := s.overlay _) nnn h16
  · rw [execCall_of_not_lt nnn h16]; exact execCall_of_not_lt (s := s.overlay _) nnn h16

theorem execRet_overlay (h : o.stack = none) : execRet (s.overlay o) = onNext (·.overlay o) (execRet s) := by
  obtain ⟨_, _, _, _, _, _, _, _⟩ := o
  cases h
  by_cases h0 : s.sp.val = 0
  · rw [execRet_of_eq h0]; exact execRet_of_eq (s := s.overlay _) h0
  · rw [execRet_of_ne h0]; exact execRet_of_ne (s := s.overlay _) h0

theorem execBcd_overlay (h : o.i = none) (x : Reg) : execBcd x (s.overlay o) = onNext (·.overlay o) (execBcd x s) := by
  simp only [execBcd, onNext_checkedRange, State.dataBase, overlay_i h, memWriteBytes_overlay]
  rfl

theorem execStor_overlay (h : o.i = none) (x : Reg) : execStor x (s.overlay o) = onNext (·.overlay o) (execStor x s) := by
  simp only [execStor, onNext_checkedRange, State.dataBase, overlay_i h, storeRegs_overlay h]

theorem execRead_overlay (h : o.i = none) (x : Reg) : execRead x (s.overlay o) = onNext (·.overlay o) (execRead x s) := by
  simp only [execRead, onNext_checkedRange, State.dataBase, overlay_i h, loadRegs_overlay h]

theorem execDraw_overlay (hi : o.i = none) (hf : o.fb = none) (x y : Reg) (n : Nibble) :
    execDraw x y n (s.overlay o) = onNext (·.overlay o) (execDraw x y n s) := by
  obtain ⟨_, _, _, _, _, _, _, _⟩ := o
  cases hi
  cases hf
  simp only [execDraw, onNext_checkedRange]
  rfl

/-- An instruction has the same outcome when elements it does not use are replaced, and leaves the replacements there. -/
theorem exec_overlay (h : o.avoids i) : exec i (s.overlay o) = onNext (·.overlay o) (exec i s) := by
  cases i with
  | call nnn => exact execCall_overlay h nnn
  | ret => exact execRet_overlay h
  | addr x y | sub x y | subn x y | shr x y | shl x y => exact congrArg Host.Outcome.next (writeFlagged_overlay ..)
  | skpr x => exact execSkpr_overlay h x
  | skup x => exact execSkup_overlay h x
  | keyd x => exact congrArg Host.Outcome.next (keyWait_overlay h.1 h.2 x)
  | bcd x => exact execBcd_overlay h x
  | stor x => exact execStor_overlay h x
  | read x => exact execRead_overlay h x
  | draw x y n => exact execDraw_overlay h.1 h.2 x y n
  | cls | moved | loadd | loads | rand | loadi | addi | ldspr =>
    obtain ⟨_, _, _, _, _, _, _, _⟩ := o
    cases h
    rfl
  | _ => rfl

end Sys2Proof.Machine
end

section
/-! The statements about the parameters and the single elements of the state. -/

namespace Sys2Proof.Machine

open Sys2Proof.Config

variable {s t : State} {i : Instr}

/-- Settles O9: the start of the tick sets the inputs, the counter and the report, and no instruction touches them. -/
theorem tickKeepsParametersAndConsumesOneInput : Obligations.TickKeepsParametersAndConsumesOneInput := by
  intro s t h
  obtain ⟨-, ⟨hd, rfl⟩ | ⟨i, hd, he⟩⟩ := step_next h
  · exact ⟨rfl, rfl, rfl, fun _ => hd, fun _ => Option.some_ne_none _⟩
  · refine ⟨.trans (exec_params he) rfl, .trans (exec_inputs he) rfl, .trans (exec_tickNo he) rfl,
      fun hn => absurd (exec_diag he) hn, fun hn => ?_⟩
    cases hd.symm.trans hn

/-- Settles O48: the framebuffer is an element that only DRAW and CLS use, and CLS overwrites all of it. -/
theorem onlyDrawAndClsTouchTheFramebuffer : Obligations.OnlyDrawAndClsTouchTheFramebuffer := by
  intro i s fb hd
  refine ⟨?_, fun hc t h => exec_fb h hc hd⟩
  split
  next hc => subst hc; rfl
  next hc =>
    have ha : ({ fb := some fb } : Overlay).avoids i := by
      cases i with
      | cls => exact absurd rfl hc
      | draw x y n => exact absurd rfl (hd x y n)
      | _ => simp [Overlay.avoids]
    exact exec_overlay ha

/-- Settles O49: the latch is an element that only KEYD uses. -/
theorem onlyKeydTouchesTheLatch : Obligations.OnlyKeydTouchesTheLatch := by
  intro i s kw hk
  have ha : ({ kw := some kw } : Overlay).avoids i := by
    cases i with
    | keyd x => exact absurd rfl (hk x)
    | _ => simp [Overlay.avoids]
  exact ⟨exec_overlay ha, fun t h => exec_kw h hk⟩

/-- Settles O50: no instruction has the key table in its frame, and only SKPR, SKUP and KEYD use it. -/
theorem keyTableIsReadOnlyToTheCore : Obligations.KeyTableIsReadOnlyToTheCore := by
  refine fun i s key => ⟨fun t => exec_key, fun hk => ?_⟩
  have ha : ({ key := some key } : Overlay).avoids i := by
    cases i with
    | skpr x => exact absurd rfl (hk x).1
    | skup x => exact absurd rfl (hk x).2.1
    | keyd x => exact absurd rfl (hk x).2.2
    | _ => simp [Overlay.avoids]
  exact exec_overlay ha

/-- Settles O51: DT is an element that only LOADD and MOVED use, ST one that only LOADS uses, by overwriting it. -/
theorem timersAreTouchedOnlyByTheirInstructions : Obligations.TimersAreTouchedOnlyByTheirInstructions := by
  refine fun i s b => ⟨fun hd t h => exec_dt h hd, fun hd => ?_, fun hs => ⟨?_, fun t h => exec_st h hs⟩, ?_⟩
  · have ha : ({ dt := some b } : Overlay).avoids i := by
      cases i with
      | loadd x => exact absurd rfl (hd x).1
      | moved x => exact absurd rfl (hd x).2
      | _ => simp [Overlay.avoids]
    exact exec_overlay ha
  · have ha : ({ st := some b } : Overlay).avoids i := by
      cases i with
      | loads x => exact absurd rfl (hs x)
      | _ => simp [Overlay.avoids]
    exact exec_overlay ha
  · rintro ⟨x, rfl⟩
    rfl

/-- Settles O52: LOADI and LDSPR overwrite I; every other instruction but those that read it does not use it. -/
theorem indexRegisterUse : Obligations.IndexRegisterUse := by
  refine fun i s w => ⟨fun hi t h => exec_i h hi, fun hi => ?_⟩
  cases i with
  | loadi nnn => exact .inl rfl
  | ldspr x => exact .inl rfl
  | addi | bcd | stor | read | draw => simp at hi
  | _ => exact .inr (exec_overlay (o := { i := some w }) (by simp [Overlay.avoids]))

end Sys2Proof.Machine
end

section
/-! Which data registers an instruction may write. -/

namespace Sys2Proof.Machine

open Sys2Proof.Config

variable {s t : State} {i : Instr}

/-- The data registers the instruction may write (10_state.md R23, 41_load_logic.md R120). -/
def MayWriteV (i : Instr) (z : Reg) : Prop :=
  match i with
  | .load x _ | .add x _ | .rand x _ | .move x _ | .or x _ | .and x _ | .xor x _ | .moved x | .keyd x => z = x
  | .addr x _ | .sub x _ | .subn x _ | .shr x _ | .shl x _ => z = x ∨ z = vf
  | .draw _ _ _ => z = vf
  | .read x => z ≤ x
  | _ => False

theorem getV_setV_of_ne {x z : Reg} (b : Byte) (h : z ≠ x) : (s.setV x b).getV z = s.getV z := by
  rw [getV_setV, if_neg h]

theorem writeFlagged_getV_of_ne {x z : Reg} (y : Reg) (flag result : Byte → Byte → Byte) (h : ¬ (z = x ∨ z = vf)) :
    (s.writeFlagged x y flag result).getV z = s.getV z := by
  rw [not_or] at h
  unfold State.writeFlagged
  split <;> simp only [getV_setV, if_neg h.1, if_neg h.2]

theorem loadRegs_getV_of_notMem {z : Reg} {rs : List Reg} (h : z ∉ rs) : (s.loadRegs rs).getV z = s.getV z := by
  induction rs generalizing s with
  | nil => rfl
  | cons r rs ih =>
    rw [List.mem_cons, not_or] at h
    rw [State.loadRegs, ih h.2, getV_setI, getV_setV_of_ne _ h.1]

theorem keyWait_getV_of_ne {x z : Reg} (h : z ≠ x) : (s.keyWait x).getV z = s.getV z := by
  rcases keyWait_cases s x with ⟨_, _, e⟩ | ⟨_, _, _, _, e⟩ | ⟨_, _, _, e⟩ | ⟨_, _, _, e⟩ <;> rw [e]
  · rfl
  · exact getV_setV_of_ne _ h
  · rfl
  · rfl

/-- A data register outside the ones the instruction may write is as before. -/
theorem exec_getV {z : Reg} (h : exec i s = .next t) (hz : ¬ MayWriteV i z) : t.getV z = s.getV z := by
  cases i with
  | load | add | rand | move | or | and | xor | moved => cases h; exact getV_setV_of_ne _ hz
  | addr | sub | subn | shr | shl => cases h; exact writeFlagged_getV_of_ne _ _ _ hz
  | keyd x => cases h; exact keyWait_getV_of_ne hz
  | draw x y n =>
    obtain ⟨-, rfl⟩ := checkedRange_next h
    exact getV_setV_of_ne (s := { s with fb := _ }) _ hz
  | read x =>
    obtain ⟨-, rfl⟩ := checkedRange_next h
    exact loadRegs_getV_of_notMem fun hm => hz (mem_blockRegs.1 hm)
  | _ => exact congrArg (·[z]) (congrArg State.v (exec_frame h) :)

/-- Settles O47: where VF changed, it is a register the instruction may write. -/
theorem onlyFlagInstructionsTouchVf : Obligations.OnlyFlagInstructionsTouchVf := by
  intro i s t h hne
  have hw : MayWriteV i 15 := not_imp_comm.1 (exec_getV h) hne
  cases i with
  | load x nn | add x nn | rand x nn => cases hw; exact .inr (.inl ⟨0, nn, by simp⟩)
  | move x y | or x y | and x y | xor x y => cases hw; exact .inr (.inl ⟨y, 0, by simp⟩)
  | addr x y | sub x y | subn x y | shr x y | shl x y => exact .inl ⟨x, y, by simp⟩
  | draw x y n => exact .inl ⟨x, y, by simp⟩
  | moved x | keyd x => cases hw; exact .inr (.inr (by simp))
  | read x =>
    have hx : x = 15 := Fin.le_antisymm (Fin.le_last x) hw
    subst hx
    exact .inr (.inr (by simp))
  | _ => exact hw.elim

end Sys2Proof.Machine
end

section
/-! Stack entries at SP or above are never read. -/

namespace Sys2Proof.Machine

open Sys2Proof.Config

variable {s t : State} {i : Instr}

/-- The stacks agree on the live entries: those below SP (10_state.md R28). -/
def LiveEq (sp : Fin 17) (a b : Vector Word 16) : Prop := ∀ k : Fin 16, k.val < sp.val → a[k] = b[k]

/-- The outcome `o'` is `o`, but for stack entries at SP or above. -/
def SameButDeadEntries (o o' : Host.Outcome State Fault Refusal) : Prop :=
  (∀ t, o = .next t → ∃ t', o' = .next t' ∧ t' = { t with stack := t'.stack } ∧ LiveEq t.sp t'.stack t.stack) ∧
  ∀ r, o = .fault r → o' = .fault r

theorem sameButDeadEntries_next {t : State} {stack : Vector Word 16} (h : LiveEq t.sp stack t.stack) :
    SameButDeadEntries (.next t) (.next { t with stack }) := by
  refine ⟨fun u hu => ?_, fun r hr => (by cases hr)⟩
  cases hu
  exact ⟨_, rfl, rfl, h⟩

theorem sameButDeadEntries_fault (r : Fault) : SameButDeadEntries (.fault r) (.fault r) :=
  ⟨fun u hu => (by cases hu), fun _ => id⟩

/-- A push makes the entry at SP live, and writes it. -/
theorem liveEq_set {sp : Fin 17} {a b : Vector Word 16} (h : LiveEq sp a b) (hs : sp.val < 16) (w : Word) :
    LiveEq ⟨sp.val + 1, by omega⟩ (a.set sp.val w) (b.set sp.val w) := by
  intro k hk
  change (a.set sp.val w)[k.val] = (b.set sp.val w)[k.val]
  rw [Vector.getElem_set, Vector.getElem_set]
  split
  · rfl
  next hne => exact h k (by change k.val < sp.val + 1 at hk; omega)

theorem execCall_sameButDeadEntries {stack : Vector Word 16} (h : LiveEq s.sp stack s.stack) (nnn : Addr12) :
    SameButDeadEntries (execCall nnn s) (execCall nnn { s with stack }) := by
  by_cases hs : s.sp.val < 16
  · rw [execCall_of_lt nnn hs, execCall_of_lt (s := { s with stack }) nnn hs]
    exact sameButDeadEntries_next (liveEq_set h hs s.pc)
  · rw [execCall_of_not_lt nnn hs, execCall_of_not_lt (s := { s with stack }) nnn hs]
    exact sameButDeadEntries_fault _

theorem execRet_sameButDeadEntries {stack : Vector Word 16} (h : LiveEq s.sp stack s.stack) :
    SameButDeadEntries (execRet s) (execRet { s with stack }) := by
  by_cases hs : s.sp.val = 0
  · rw [execRet_of_eq hs, execRet_of_eq (s := { s with stack }) hs]
    exact sameButDeadEntries_fault _
  · have hpc : stack[s.sp.val - 1] = s.stack[s.sp.val - 1] :=
      h ⟨s.sp.val - 1, by omega⟩ (Nat.sub_one_lt hs)
    rw [execRet_of_ne hs, execRet_of_ne (s := { s with stack }) hs]
    simp only [hpc]
    exact sameButDeadEntries_next fun k hk => h k (Nat.lt_of_lt_of_le hk (Nat.sub_le ..))

/-- An instruction that does not use the stack leaves all of it in place, dead entries included. -/
theorem exec_sameButDeadEntries_of_ne {stack : Vector Word 16} (h : LiveEq s.sp stack s.stack)
    (hc : ∀ n, i ≠ .call n) (hr : i ≠ .ret) : SameButDeadEntries (exec i s) (exec i { s with stack }) := by
  have ha : ({ stack := some stack } : Overlay).avoids i := by
    cases i with
    | call n => exact absurd rfl (hc n)
    | ret => exact absurd rfl hr
    | _ => simp [Overlay.avoids]
  have hov : exec i { s with stack } = onNext (fun t => { t with stack }) (exec i s) := exec_overlay ha
  rw [hov]
  cases he : exec i s with
  | next t =>
    refine sameButDeadEntries_next ?_
    rw [exec_stack he hc, exec_sp he hc hr]
    exact h
  | fault r => exact sameButDeadEntries_fault r
  | refused r => exact ⟨fun u hu => (by cases hu), fun r hr => (by cases hr)⟩

/-- No instruction reads a dead entry: CALL overwrites the first of them, RET reads the last live one, and no other
instruction uses the stack. -/
theorem exec_sameButDeadEntries {stack : Vector Word 16} (h : LiveEq s.sp stack s.stack) :
    SameButDeadEntries (exec i s) (exec i { s with stack }) := by
  cases i with
  | call nnn => exact execCall_sameButDeadEntries h nnn
  | ret => exact execRet_sameButDeadEntries h
  | _ => exact exec_sameButDeadEntries_of_ne h (by simp) (by simp)

/-- A tick never reads a dead entry: what it does before the instruction does not look at the stack. -/
theorem step_sameButDeadEntries {stack : Vector Word 16} (h : LiveEq s.sp stack s.stack) :
    SameButDeadEntries (step s) (step { s with stack }) := by
  rcases step_kinds s with ⟨r, hh⟩ | ⟨hr, hc⟩ | ⟨hr, hc, hd⟩ | ⟨i, hr, hc, hd⟩
  · rw [step_of_halted hh, step_of_halted (s := { s with stack }) hh]
    exact sameButDeadEntries_fault r
  · rw [step_of_not_canFetch hr hc, step_of_not_canFetch (s := { s with stack }) hr hc]
    exact sameButDeadEntries_fault _
  · rw [step_of_illegal hr hc hd, step_of_illegal (s := { s with stack }) hr hc hd]
    exact sameButDeadEntries_next h
  · rw [step_of_decoded hr hc hd, step_of_decoded (s := { s with stack }) hr hc hd]
    exact exec_sameButDeadEntries (s := s.entryState) h

/-- Settles O53, from the frames of the instructions and `step_sameButDeadEntries`. -/
theorem deadStackEntriesAreUnobservable : Obligations.DeadStackEntriesAreUnobservable :=
  ⟨fun _ _ _ h hc hr => ⟨exec_sp h hc hr, exec_stack h hc⟩, fun _ _ h => step_sameButDeadEntries h⟩

end Sys2Proof.Machine
end

section
/-! The state after reset. -/

namespace Sys2Proof.Machine

open Sys2Proof.Config

variable (p : Params)

theorem resetWith_getV (x : Reg) : (State.resetWith p).getV x = 0 := by
  simp [State.resetWith, State.getV, resetReg]

theorem resetWith_pixel (x : Fin 64) (y : Fin 32) : (State.resetWith p).pixel x y = false := by
  simp [State.resetWith, State.pixel, resetPixel]

/-- Nothing is listed in memory at reset, so every address reads as it does before any write. -/
theorem resetWith_memRead (a : Nat) : (State.resetWith p).memRead a = resetByte p a := rfl

/-- Settles O1: each element read off `State.resetWith`. -/
theorem resetLeavesTheValuesOfTheTable : Obligations.ResetLeavesTheValuesOfTheTable := by
  intro p s
  refine ⟨rfl, rfl, fun k => ?_, resetWith_getV p, rfl, rfl, rfl, rfl, resetWith_pixel p, fun k => ?_, rfl, rfl, rfl,
    fun k => ?_, fun a ha => ?_, rfl⟩
  · simp [s, State.resetWith, resetStackEntry]
  · simp [s, State.resetWith, resetKey]
  · exact (resetWith_memRead p k).trans (dif_pos k.isLt)
  · exact (resetWith_memRead p a).trans (dif_neg (Nat.not_lt.2 ha))

theorem resetWith_inv : (State.resetWith p).Inv :=
  ⟨Memory.wf_nil, show resetPc.toNat ≤ 0x10FE by decide, fun _ hk => absurd hk (Nat.not_lt_zero _)⟩

theorem resetWith_keyWaitInv : (State.resetWith p).KeyWaitInv := by
  intro k hk
  cases hk

/-- Settles O57: no stack entry is live, no key is captured and memory lists nothing. -/
theorem invariantsHoldAtReset : Obligations.InvariantsHoldAtReset :=
  fun p => ⟨resetWith_inv p, resetWith_keyWaitInv p, resetWith_inv _, resetWith_keyWaitInv _⟩

end Sys2Proof.Machine
end

section
/-! The fetch, a fetch of bytes a STOR stored, and the one list that stands for a memory in canonical form. -/

namespace Sys2Proof.Machine

open Sys2Proof.Config

/-- Settles O11: the fetch in range gives the word of its two bytes, and the first of them is the high one. -/
theorem fetchIsBigEndian : Obligations.FetchIsBigEndian :=
  fun s h => ⟨_, fetch_ok s h, wordOfBytes_toNat _ _⟩

section StoredBlock

variable {s t : State}

theorem memRead_congr (hm : s.mem = t.mem) (hp : s.params = t.params) (a : Nat) : s.memRead a = t.memRead a := by
  rw [State.memRead, State.memRead, hm, hp]

theorem storeRegs_params (rs : List Reg) : (s.storeRegs rs).params = s.params :=
  (congrArg State.params (storeRegs_frame s rs) :)

theorem memWriteBytes_params (a : Nat) (bs : List Byte) : (s.memWriteBytes a bs).params = s.params :=
  (congrArg State.params (memWriteBytes_frame s a bs) :)

/-- Every byte after the loop of STOR reads as after the registers are stored in order from I (43_index_memory.md R145). -/
theorem memRead_storeRegs {rs : List Reg} (h : s.i.toNat + rs.length ≤ memSize) (a : Nat) :
    (s.storeRegs rs).memRead a = (s.memWriteBytes s.i.toNat (rs.map s.getV)).memRead a :=
  memRead_congr (storeRegs_mem s rs h) (by rw [storeRegs_params, memWriteBytes_params]) a

theorem getElem_blockRegs {x r : Reg} (h : r.val < (blockRegs x).length) : (blockRegs x)[r.val] = r := by
  simp [blockRegs]

/-- Each register of a block inside memory stands at its own distance from I (R145). -/
theorem memRead_storeRegs_blockRegs {x r : Reg} (hw : s.mem.wf s.params = true) (hi : s.i.toNat + x.val ≤ 0xFFF)
    (hr : r.val ≤ x.val) : (s.storeRegs (blockRegs x)).memRead (s.i.toNat + r.val) = s.getV r := by
  have hlen : s.i.toNat + (blockRegs x).length ≤ memSize := by rw [length_blockRegs, memSize]; omega
  have hmem : r.val < (blockRegs x).length := by rw [length_blockRegs]; omega
  rw [memRead_storeRegs hlen, memRead_memWriteBytes s _ _ _ hw (by simpa using hlen), dif_pos (by simp [hmem])]
  simp [getElem_blockRegs hmem]

/-- STOR completes where its block is in memory (R145). -/
theorem exec_stor_of_le {x : Reg} (h : s.i.toNat + x.val ≤ 0xFFF) :
    exec (.stor x) s = .next (s.storeRegs (blockRegs x)) := by
  rcases checkedRange_cases s.i.toNat (x.val + 1) (s.storeRegs (blockRegs x)) with ⟨-, e⟩ | ⟨-, hlt, -⟩
  · exact e
  · rw [memSize] at hlt; omega

/-- Settles O37: the two bytes at pc are the registers the block holds there. -/
theorem fetchSeesStoredBytes : Obligations.FetchSeesStoredBytes := by
  intro x r r' s hw hi hr' hx
  refine ⟨_, exec_stor_of_le hi, fun u hm hp hpc => ?_⟩
  have hread : ∀ q : Reg, q.val ≤ x.val → u.memRead (s.i.toNat + q.val) = s.getV q := fun q hq =>
    (memRead_congr hm hp _).trans (memRead_storeRegs_blockRegs hw hi hq)
  have hfetch : u.canFetch := show u.pc.toNat ≤ 0xFFE by omega
  rw [fetch_ok u hfetch, hpc, show s.i.toNat + r.val + 1 = s.i.toNat + r'.val by omega, hread r (by omega), hread r' hx]

end StoredBlock

section Canonical

variable {p : Params} {m m' : Memory} {lo lo' b : Nat} {w : Byte}

theorem Memory.wfFrom_cons :
    Memory.wfFrom p lo ((b, w) :: m) = true ↔
      lo ≤ b ∧ b < memSize ∧ w ≠ resetByte p b ∧ Memory.wfFrom p (b + 1) m = true := by
  simp [Memory.wfFrom, and_assoc]

/-- A canonical memory is one from its own first address on. -/
theorem Memory.wfFrom_first (h : Memory.wfFrom p lo ((b, w) :: m) = true) : Memory.wfFrom p b ((b, w) :: m) = true := by
  obtain ⟨-, hb, hw, hm⟩ := Memory.wfFrom_cons.1 h
  exact Memory.wfFrom_cons.2 ⟨le_rfl, hb, hw, hm⟩

theorem Memory.read_cons_same : Memory.read p ((b, w) :: m) b = w := if_pos rfl

theorem Memory.read_cons_of_ne {a : Nat} (h : a ≠ b) : Memory.read p ((b, w) :: m) a = m.read p a := if_neg h

/-- Below `lo'` a memory canonical from `lo'` on gives the reset byte, and a listed byte differs from it: so a canonical
memory that reads alike lists nothing below `lo'`. -/
theorem Memory.le_first (h : Memory.wfFrom p lo ((b, w) :: m) = true) (h' : Memory.wfFrom p lo' m' = true)
    (hr : ∀ a, Memory.read p ((b, w) :: m) a = m'.read p a) : lo' ≤ b := by
  obtain ⟨-, -, hw, -⟩ := Memory.wfFrom_cons.1 h
  by_contra hlt
  exact hw ((Memory.read_cons_same.symm.trans (hr b)).trans (Memory.read_of_lt h' (by omega)))

/-- Canonical lists that read alike and begin with the same address have tails that read alike. -/
theorem Memory.tails_read_alike {w' : Byte} (h : Memory.wfFrom p (b + 1) m = true) (h' : Memory.wfFrom p (b + 1) m' = true)
    (hr : ∀ a, Memory.read p ((b, w) :: m) a = Memory.read p ((b, w') :: m') a) (a : Nat) : m.read p a = m'.read p a := by
  by_cases ha : a = b
  · rw [ha, Memory.read_of_lt h (Nat.lt_succ_self b), Memory.read_of_lt h' (Nat.lt_succ_self b)]
  · simpa only [Memory.read_cons_of_ne ha] using hr a

/-- A canonical list is determined by the bytes it gives, cell by cell. -/
theorem Memory.eq_of_read_eq (h : Memory.wfFrom p lo m = true) (h' : Memory.wfFrom p lo' m' = true)
    (hr : ∀ a, m.read p a = m'.read p a) : m = m' := by
  induction m generalizing lo lo' m' with
  | nil =>
    cases m' with
    | nil => rfl
    | cons c' m' => exact absurd (Memory.le_first (lo' := c'.1 + 1) h' rfl fun a => (hr a).symm) (by omega)
  | cons c m ih =>
    obtain ⟨b, w⟩ := c
    cases m' with
    | nil => exact absurd (Memory.le_first (lo' := b + 1) h rfl hr) (by omega)
    | cons c' m' =>
      obtain ⟨b', w'⟩ := c'
      obtain rfl : b = b' := le_antisymm
        (Memory.le_first h' (Memory.wfFrom_first h) fun a => (hr a).symm) (Memory.le_first h (Memory.wfFrom_first h') hr)
      obtain rfl : w = w' := by simpa only [Memory.read_cons_same] using hr b
      obtain ⟨-, -, -, hm⟩ := Memory.wfFrom_cons.1 h
      obtain ⟨-, -, -, hm'⟩ := Memory.wfFrom_cons.1 h'
      rw [ih hm hm' (Memory.tails_read_alike hm hm' hr)]

/-- Settles O56: from address 0 on, the bytes determine the list. -/
theorem canonicalMemoriesAreUnique : Obligations.CanonicalMemoriesAreUnique :=
  fun _ _ _ h h' hr => Memory.eq_of_read_eq h h' hr

end Canonical

end Sys2Proof.Machine
end

section
/-! Decoding and encoding (30_encoding.md R70 to R80): a word that selects a row of the opcode map decodes to that row's
instruction with the operands of the word, and a word that decodes to an instruction is that instruction's word. -/

namespace Sys2Proof

variable {strict : Bool} {w v : Word} {i : Instr}

/-! ### A word from its fields -/

/-- Settles O10: each field as a quotient and a remainder of the word. -/
theorem fieldsAreTheBitsOfTheWord : Obligations.FieldsAreTheBitsOfTheWord := by
  intro w
  have := w.isLt
  simp only [fieldKind_toNat, fieldX_val, fieldY_val, fieldN_val, fieldNN_toNat, fieldNNN_toNat]
  omega

theorem encodeNNN_fields (w : Word) : encodeNNN (fieldKind w) (fieldNNN w) = w :=
  BitVec.eq_of_toNat_eq (by rw [encodeNNN_toNat, fieldKind_toNat, fieldNNN_toNat]; omega)

theorem encodeXNN_fields (w : Word) : encodeXNN (fieldKind w) (fieldX w) (fieldNN w) = w :=
  BitVec.eq_of_toNat_eq (by rw [encodeXNN_toNat, fieldKind_toNat, fieldX_val, fieldNN_toNat]; omega)

theorem encodeXYN_fields (w : Word) : encodeXYN (fieldKind w) (fieldX w) (fieldY w) (fieldN w) = w :=
  BitVec.eq_of_toNat_eq (by rw [encodeXYN_toNat, fieldKind_toNat, fieldX_val, fieldY_val, fieldN_val]; omega)

/-! ### The fields a mask keeps -/

theorem fieldKind_of_and_F000 (h : w &&& 0xF000#16 = v) : fieldKind w = v.extractLsb' 12 4 :=
  BitVec.eq_of_toNat_eq (by rw [← fieldKind, fieldKind_toNat, fieldKind_toNat, ← h, and_F000_toNat]; omega)

theorem fieldKind_of_and_F00F (h : w &&& 0xF00F#16 = v) : fieldKind w = v.extractLsb' 12 4 :=
  BitVec.eq_of_toNat_eq (by rw [← fieldKind, fieldKind_toNat, fieldKind_toNat, ← h, and_F00F_toNat]; omega)

theorem fieldN_of_and_F00F (h : w &&& 0xF00F#16 = v) : fieldN w = Fin.ofNat 16 v.toNat :=
  Fin.ext (by rw [fieldN_val, Fin.val_ofNat, ← h, and_F00F_toNat]; omega)

theorem fieldKind_of_and_F0FF (h : w &&& 0xF0FF#16 = v) : fieldKind w = v.extractLsb' 12 4 :=
  BitVec.eq_of_toNat_eq (by rw [← fieldKind, fieldKind_toNat, fieldKind_toNat, ← h, and_F0FF_toNat]; omega)

theorem fieldNN_of_and_F0FF (h : w &&& 0xF0FF#16 = v) : fieldNN w = v.extractLsb' 0 8 :=
  BitVec.eq_of_toNat_eq (by rw [← fieldNN, fieldNN_toNat, fieldNN_toNat, ← h, and_F0FF_toNat]; omega)

/-! ### A word that selects a row -/

/-- The instruction with its operands replaced by those of the word `w` (R71, R72). -/
def Instr.withOperandsOf (w : Word) : Instr → Instr
  | .cls => .cls
  | .ret => .ret
  | .jump _ => .jump (fieldNNN w)
  | .call _ => .call (fieldNNN w)
  | .seImm _ _ => .seImm (fieldX w) (fieldNN w)
  | .sneImm _ _ => .sneImm (fieldX w) (fieldNN w)
  | .seReg _ _ _ => .seReg (fieldX w) (fieldY w) (fieldN w)
  | .load _ _ => .load (fieldX w) (fieldNN w)
  | .add _ _ => .add (fieldX w) (fieldNN w)
  | .move _ _ => .move (fieldX w) (fieldY w)
  | .or _ _ => .or (fieldX w) (fieldY w)
  | .and _ _ => .and (fieldX w) (fieldY w)
  | .xor _ _ => .xor (fieldX w) (fieldY w)
  | .addr _ _ => .addr (fieldX w) (fieldY w)
  | .sub _ _ => .sub (fieldX w) (fieldY w)
  | .shr _ _ => .shr (fieldX w) (fieldY w)
  | .subn _ _ => .subn (fieldX w) (fieldY w)
  | .shl _ _ => .shl (fieldX w) (fieldY w)
  | .sneReg _ _ _ => .sneReg (fieldX w) (fieldY w) (fieldN w)
  | .loadi _ => .loadi (fieldNNN w)
  | .jumpi _ => .jumpi (fieldNNN w)
  | .rand _ _ => .rand (fieldX w) (fieldNN w)
  | .draw _ _ _ => .draw (fieldX w) (fieldY w) (fieldN w)
  | .skpr _ => .skpr (fieldX w)
  | .skup _ => .skup (fieldX w)
  | .moved _ => .moved (fieldX w)
  | .keyd _ => .keyd (fieldX w)
  | .loadd _ => .loadd (fieldX w)
  | .loads _ => .loads (fieldX w)
  | .addi _ => .addi (fieldX w)
  | .ldspr _ => .ldspr (fieldX w)
  | .bcd _ => .bcd (fieldX w)
  | .stor _ => .stor (fieldX w)
  | .read _ => .read (fieldX w)

theorem row_withOperandsOf (strict : Bool) (w : Word) (i : Instr) : (i.withOperandsOf w).row strict = i.row strict := by
  cases i <;> rfl

/-- An instruction's operands are those of its own word. -/
theorem withOperandsOf_encode (i : Instr) : i.withOperandsOf (encode i) = i := by
  cases i <;> simp [encode, Instr.withOperandsOf]

theorem lowNibbleOk_iff (strict : Bool) (n : Nibble) : lowNibbleOk strict n = true ↔ (strict = true → n = 0) := by
  cases strict <;> simp [lowNibbleOk]

/-- The mask of SE_REG and SNE_REG fixes the kind, and the low nibble to one the machine takes (R79). -/
theorem fields_of_and_mask59 (h : w &&& mask59 strict = v) (hv : Fin.ofNat 16 v.toNat = 0) :
    fieldKind w = v.extractLsb' 12 4 ∧ lowNibbleOk strict (fieldN w) = true := by
  cases strict with
  | false => exact ⟨fieldKind_of_and_F000 h, by simp [lowNibbleOk_iff]⟩
  | true => exact ⟨fieldKind_of_and_F00F h, by simpa [lowNibbleOk_iff, fieldN_of_and_F00F h] using hv⟩

/-- A word that selects an instruction's row decodes to that instruction with the operands of the word (R75). -/
theorem decodeWord_of_and_mask (i : Instr) (h : w &&& (i.row strict).mask = (i.row strict).value) :
    decodeWord strict w = some (i.withOperandsOf w) := by
  cases i
  case cls => obtain rfl : w = 0x00E0#16 := (and_FFFF w).symm.trans h; cases strict <;> decide
  case ret => obtain rfl : w = 0x00EE#16 := (and_FFFF w).symm.trans h; cases strict <;> decide
  case jump | call | seImm | sneImm | load | add | loadi | jumpi | rand | draw =>
    simp [decodeWord, fieldKind_of_and_F000 h, Instr.row, Instr.withOperandsOf]
  case move | or | and | xor | addr | sub | shr | subn | shl =>
    simp [decodeWord, fieldKind_of_and_F00F h, decodeFamily8, fieldN_of_and_F00F h, Instr.row, Instr.withOperandsOf]
  case skpr | skup =>
    simp [decodeWord, fieldKind_of_and_F0FF h, decodeFamilyE, fieldNN_of_and_F0FF h, Instr.row, Instr.withOperandsOf]
  case moved | keyd | loadd | loads | addi | ldspr | bcd | stor | read =>
    simp [decodeWord, fieldKind_of_and_F0FF h, decodeFamilyF, fieldNN_of_and_F0FF h, Instr.row, Instr.withOperandsOf]
  case seReg | sneReg =>
    obtain ⟨hk, hn⟩ := fields_of_and_mask59 h (by simp [Instr.row])
    simp [decodeWord, hk, hn, Instr.row, Instr.withOperandsOf]

theorem decodeWord_of_selects (i : Instr) (h : (i.row strict).selects w = true) :
    decodeWord strict w = some (i.withOperandsOf w) :=
  decodeWord_of_and_mask i (eq_of_beq h)

theorem encode_selects_row (h : i.wellFormed strict = true) : (i.row strict).selects (encode i) = true := by
  revert strict
  change Laws.EncodesRow.Statement i
  cases i with
  | cls => exact Laws.EncodesRow.cls
  | ret => exact Laws.EncodesRow.ret
  | jump => exact Laws.EncodesRow.jump _
  | call => exact Laws.EncodesRow.call _
  | seImm => exact Laws.EncodesRow.seImm _ _
  | sneImm => exact Laws.EncodesRow.sneImm _ _
  | seReg => exact Laws.EncodesRow.seReg _ _ _
  | load => exact Laws.EncodesRow.load _ _
  | add => exact Laws.EncodesRow.add _ _
  | move => exact Laws.EncodesRow.move _ _
  | or => exact Laws.EncodesRow.or _ _
  | and => exact Laws.EncodesRow.and _ _
  | xor => exact Laws.EncodesRow.xor _ _
  | addr => exact Laws.EncodesRow.addr _ _
  | sub => exact Laws.EncodesRow.sub _ _
  | shr => exact Laws.EncodesRow.shr _ _
  | subn => exact Laws.EncodesRow.subn _ _
  | shl => exact Laws.EncodesRow.shl _ _
  | sneReg => exact Laws.EncodesRow.sneReg _ _ _
  | loadi => exact Laws.EncodesRow.loadi _
  | jumpi => exact Laws.EncodesRow.jumpi _
  | rand => exact Laws.EncodesRow.rand _ _
  | draw => exact Laws.EncodesRow.draw _ _ _
  | skpr => exact Laws.EncodesRow.skpr _
  | skup => exact Laws.EncodesRow.skup _
  | moved => exact Laws.EncodesRow.moved _
  | keyd => exact Laws.EncodesRow.keyd _
  | loadd => exact Laws.EncodesRow.loadd _
  | loads => exact Laws.EncodesRow.loads _
  | addi => exact Laws.EncodesRow.addi _
  | ldspr => exact Laws.EncodesRow.ldspr _
  | bcd => exact Laws.EncodesRow.bcd _
  | stor => exact Laws.EncodesRow.stor _
  | read => exact Laws.EncodesRow.read _

/-- The word of a well-formed instruction selects the instruction's row, and the operands of that word are its own. -/
theorem decodeWord_encode (h : i.wellFormed strict = true) : decodeWord strict (encode i) = some i := by
  rw [decodeWord_of_selects i (encode_selects_row h), withOperandsOf_encode]

/-! ### A word that decodes -/

theorem encodeNNN_of_kind {k : BitVec 4} (hk : fieldKind w = k) : encodeNNN k (fieldNNN w) = w :=
  hk ▸ encodeNNN_fields w

theorem encodeXNN_of_fields {k : BitVec 4} {nn : Byte} (hk : fieldKind w = k) (hnn : fieldNN w = nn) :
    encodeXNN k (fieldX w) nn = w :=
  hk ▸ hnn ▸ encodeXNN_fields w

theorem encodeXYN_of_fields {k : BitVec 4} {n : Nibble} (hk : fieldKind w = k) (hn : fieldN w = n) :
    encodeXYN k (fieldX w) (fieldY w) n = w :=
  hk ▸ hn ▸ encodeXYN_fields w

theorem encode_of_decodeFamily0 (h : decodeFamily0 w = some i) : encode i = w ∧ i.wellFormed strict = true := by
  unfold decodeFamily0 at h
  split at h
  · cases h; exact ⟨Eq.symm ‹_›, rfl⟩
  · split at h
    · cases h; exact ⟨Eq.symm ‹_›, rfl⟩
    · cases h

theorem encode_of_decodeFamily8 (hk : fieldKind w = 0x8#4) (h : decodeFamily8 w = some i) :
    encode i = w ∧ i.wellFormed strict = true := by
  unfold decodeFamily8 at h
  split at h
  case h_10 => cases h
  all_goals cases h; exact ⟨encodeXYN_of_fields hk ‹_›, rfl⟩

theorem encode_of_decodeFamilyE (hk : fieldKind w = 0xE#4) (h : decodeFamilyE w = some i) :
    encode i = w ∧ i.wellFormed strict = true := by
  unfold decodeFamilyE at h
  split at h
  case h_3 => cases h
  all_goals cases h; exact ⟨encodeXNN_of_fields hk ‹_›, rfl⟩

theorem encode_of_decodeFamilyF (hk : fieldKind w = 0xF#4) (h : decodeFamilyF w = some i) :
    encode i = w ∧ i.wellFormed strict = true := by
  unfold decodeFamilyF at h
  split at h
  case h_10 => cases h
  all_goals cases h; exact ⟨encodeXNN_of_fields hk ‹_›, rfl⟩

/-- A word is put together again from its kind and the operands the decoder took. -/
theorem encode_of_decodeWord (h : decodeWord strict w = some i) : encode i = w ∧ i.wellFormed strict = true := by
  unfold decodeWord at h
  split at h
  case h_1 => exact encode_of_decodeFamily0 h
  case h_9 hk => exact encode_of_decodeFamily8 hk h
  case h_15 hk => exact encode_of_decodeFamilyE hk h
  case h_16 =>
    have hk : fieldKind w = 0xF#4 := by simp only [imp_false] at *; bv_omega
    exact encode_of_decodeFamilyF hk h
  case h_2 hk | h_3 hk | h_11 hk | h_12 hk => cases h; exact ⟨encodeNNN_of_kind hk, rfl⟩
  case h_4 hk | h_5 hk | h_7 hk | h_8 hk | h_13 hk => cases h; exact ⟨encodeXNN_of_fields hk rfl, rfl⟩
  case h_14 hk => cases h; exact ⟨encodeXYN_of_fields hk rfl, rfl⟩
  case h_6 hk | h_10 hk =>
    split at h
    · cases h; exact ⟨encodeXYN_of_fields hk rfl, ‹_›⟩
    · cases h

/-- Settles O15: `encode_of_decodeWord`, for every legal word. -/
theorem encodeGivesBackEveryLegalWord : Obligations.EncodeGivesBackEveryLegalWord :=
  fun _ _ _ => encode_of_decodeWord

theorem wellFormed_false (i : Instr) : i.wellFormed false = true := by
  cases i <;> simp [Instr.wellFormed, lowNibbleOk_iff]

/-- No two instructions have the same word: the machine without STRICT_5_9 reads every instruction back. -/
theorem encode_injective {i j : Instr} (h : encode i = encode j) : i = j :=
  Option.some.inj <| calc
    some i = decodeWord false (encode i) := (decodeWord_encode (wellFormed_false i)).symm
    _ = decodeWord false (encode j) := by rw [h]
    _ = some j := decodeWord_encode (wellFormed_false j)

theorem decode_bytesOfWord (h : decodeWord strict w = some i) (rest : List Byte) :
    decode strict (bytesOfWord w ++ rest) = .ok (i, rest) := by
  simp [decode, bytesOfWord, bytesOfWord_word, h]

theorem decodeWord_encode_of_illFormed (h : i.wellFormed strict = false) : decodeWord strict (encode i) = none := by
  cases hd : decodeWord strict (encode i) with
  | none => rfl
  | some j =>
    obtain ⟨hw, hj⟩ := encode_of_decodeWord hd
    rw [encode_injective hw, h] at hj
    cases hj

/-- Settles O14: a well-formed instruction by `decodeWord_encode`; the word of an ill-formed one stands for no other,
since no other instruction has it. -/
theorem decodeReadsBackEveryEncodedInstruction : Obligations.DecodeReadsBackEveryEncodedInstruction :=
  fun _ _ rest => ⟨fun h => ⟨decodeWord_encode h, decode_bytesOfWord (decodeWord_encode h) rest⟩,
    decodeWord_encode_of_illFormed⟩

/-! ### The opcode map -/

theorem row_mem_opcodeMap (strict : Bool) (i : Instr) : i.row strict ∈ opcodeMap strict := by
  cases i <;> simp [opcodeMap, rowSamples, Instr.row]

theorem row_selects_of_decodeWord (h : decodeWord strict w = some i) : (i.row strict).selects w = true := by
  obtain ⟨rfl, hi⟩ := encode_of_decodeWord h
  exact encode_selects_row hi

/-- A word that selects a row of the map decodes to an instruction of that row. -/
theorem decodeWord_of_mem_opcodeMap {r : OpcodeRow} (hr : r ∈ opcodeMap strict) (h : r.selects w = true) :
    ∃ i, decodeWord strict w = some i ∧ i.row strict = r := by
  obtain ⟨i, -, rfl⟩ := List.mem_map.1 hr
  exact ⟨_, decodeWord_of_selects i h, row_withOperandsOf strict w i⟩

theorem decodeWord_eq_none_iff_no_row :
    decodeWord strict w = none ↔ ∀ r ∈ opcodeMap strict, r.selects w = false := by
  constructor
  · intro hd r hr
    by_contra h
    obtain ⟨i, hi, -⟩ := decodeWord_of_mem_opcodeMap hr (Bool.eq_true_of_not_eq_false h)
    rw [hd] at hi
    cases hi
  · intro h
    by_contra hd
    obtain ⟨i, hi⟩ := Option.ne_none_iff_exists'.1 hd
    exact Bool.false_ne_true ((h _ (row_mem_opcodeMap strict i)).symm.trans (row_selects_of_decodeWord hi))

/-- Settles O12: two rows a word selects are both the row of the one instruction it decodes to. -/
theorem decodingFollowsTheOpcodeMap : Obligations.DecodingFollowsTheOpcodeMap := by
  refine fun strict w => ⟨rfl, fun r hr r' hr' h h' => ?_,
    fun i hi => ⟨row_mem_opcodeMap strict i, row_selects_of_decodeWord hi⟩, decodeWord_eq_none_iff_no_row⟩
  obtain ⟨i, hi, rfl⟩ := decodeWord_of_mem_opcodeMap hr h
  obtain ⟨j, hj, rfl⟩ := decodeWord_of_mem_opcodeMap hr' h'
  rw [Option.some.inj (hi.symm.trans hj)]

/-! ### The illegal words (R77) -/

theorem decodeFamily0_eq_none_iff (hk : fieldKind w = 0x0#4) :
    decodeFamily0 w = none ↔ (fieldNNN w).toNat ≠ 0x0E0 ∧ (fieldNNN w).toNat ≠ 0x0EE := by
  have hw : w.toNat = (fieldNNN w).toNat := by
    simpa [hk] using congrArg BitVec.toNat (encodeNNN_fields w).symm |>.trans (encodeNNN_toNat _ _)
  simp only [decodeFamily0, ← BitVec.toNat_inj, hw]
  split_ifs <;> simp_all

theorem decodeFamily8_eq_none_iff :
    decodeFamily8 w = none ↔ (fieldN w).val ∈ [0x8, 0x9, 0xA, 0xB, 0xC, 0xD, 0xF] := by
  unfold decodeFamily8
  generalize fieldN w = n
  fin_cases n <;> simp

theorem decodeFamilyE_eq_none_iff :
    decodeFamilyE w = none ↔ (fieldNN w).toNat ≠ 0x9E ∧ (fieldNN w).toNat ≠ 0xA1 := by
  unfold decodeFamilyE
  split <;> simp_all [← BitVec.toNat_inj]

theorem decodeFamilyF_eq_none_iff :
    decodeFamilyF w = none ↔ (fieldNN w).toNat ∉ [0x07, 0x0A, 0x15, 0x18, 0x1E, 0x29, 0x33, 0x55, 0x65] := by
  unfold decodeFamilyF
  split <;> simp_all [← BitVec.toNat_inj]

/-- Settles O13, kind by kind: only the families 0, 8, E and F, and under STRICT_5_9 5 and 9, have illegal words. -/
theorem illegalWordsAreExactlyTheListedOnes : Obligations.IllegalWordsAreExactlyTheListedOnes := by
  intro strict w
  unfold decodeWord
  split
  case h_1 hk => simp [hk, decodeFamily0_eq_none_iff hk]
  case h_9 hk => simp [hk, decodeFamily8_eq_none_iff]
  case h_15 hk => simp [hk, decodeFamilyE_eq_none_iff]
  case h_16 =>
    have hk : fieldKind w = 0xF#4 := by simp only [imp_false] at *; bv_omega
    simp [hk, decodeFamilyF_eq_none_iff]
  case h_6 hk | h_10 hk => simp [hk, lowNibbleOk_iff]
  all_goals
    rename_i hk
    simp [hk]

/-- Settles O16, by running the decoder on each word. -/
theorem wordsOfTheSpecDecodeAsItSays : Obligations.WordsOfTheSpecDecodeAsItSays := by
  unfold Obligations.WordsOfTheSpecDecodeAsItSays
  decide

end Sys2Proof
end

section
/-! The assembly syntax (30_encoding.md R81): every operand form reads back what the line of an instruction writes. -/

namespace Sys2Proof.Machine

variable (x y : Reg)

theorem asmNNN_toNat (f : Addr12 → Instr) (nnn : Addr12) : asmNNN f [.num nnn.toNat] = some (f nnn) := by
  have : nnn.toNat ≤ 0xFFF := Nat.le_of_lt_succ nnn.isLt
  simp [asmNNN, this]

theorem asmXNN_toNat (f : Reg → Byte → Instr) (nn : Byte) : asmXNN f [.reg x, .num nn.toNat] = some (f x nn) := by
  have : nn.toNat ≤ 0xFF := Nat.le_of_lt_succ nn.isLt
  simp [asmXNN, this]

theorem asmXYN_val (f : Reg → Reg → Nibble → Instr) (n : Nibble) :
    asmXYN f [.reg x, .reg y, .num n.val] = some (f x y n) :=
  dif_pos n.isLt

theorem asmSkip_toNat (f : Reg → Byte → Instr) (g : Reg → Reg → Instr) (nn : Byte) :
    asmSkip f g [.reg x, .num nn.toNat] = some (f x nn) := by
  rw [asmSkip, asmXNN_toNat]

theorem assemble_disassemble {i : Instr} {l : AsmLine} (h : disassemble i = some l) : assemble l = some i := by
  cases i
  case cls | ret | move | or | and | xor | addr | sub | shr | subn | shl => cases h; rfl
  case skpr | skup | moved | keyd | loadd | loads | addi | ldspr | bcd | stor | read => cases h; rfl
  case jump | call | loadi | jumpi => cases h; exact asmNNN_toNat _ _
  case load | add | rand => cases h; exact asmXNN_toNat _ _ _
  case seImm | sneImm => cases h; exact asmSkip_toNat _ _ _ _
  case draw => cases h; exact asmXYN_val _ _ _ _
  case seReg | sneReg =>
    obtain ⟨rfl, hl⟩ := Option.ite_none_right_eq_some.1 h
    cases hl; rfl

theorem disassemble_eq_none_iff {i : Instr} :
    disassemble i = none ↔ ∃ x y n, n ≠ 0 ∧ (i = .seReg x y n ∨ i = .sneReg x y n) := by
  cases i <;> simp [disassemble]

/-- Settles O17: `assemble_disassemble` and `disassemble_eq_none_iff`. -/
theorem assemblyLinesStandForTheirInstructions : Obligations.AssemblyLinesStandForTheirInstructions :=
  fun _ => ⟨fun _ => assemble_disassemble, disassemble_eq_none_iff⟩

end Sys2Proof.Machine
end

section
/-! A tick that fetches a legal word (30_encoding.md R76). -/

namespace Sys2Proof.Machine

/-- Settles O3: `step_of_decoded`, and pc + 2 does not wrap where the fetch is in range. -/
theorem stepRunsTheDecodedInstruction : Obligations.StepRunsTheDecodedInstruction :=
  fun _ _ hr hc hd => ⟨step_of_decoded hr hc hd, entryState_pc_toNat hc⟩

end Sys2Proof.Machine
end

section
/-! The statements about control flow (40_control_flow.md R100 to R108). -/

namespace Sys2Proof.Machine

variable {s : State}

/-! ### The instructions that write pc alone -/

theorem onlyPc_setPc (s : State) (w : Word) : OnlyPc s (s.setPc w) := ⟨rfl, fun _ => rfl⟩

theorem exec_jump (nnn : Addr12) (s : State) : exec (.jump nnn) s = .next (s.setPc (zext16 nnn)) := rfl

theorem exec_jumpi (nnn : Addr12) (s : State) :
    exec (.jumpi nnn) s = .next (s.setPc (zext16 (s.getV 0) + zext16 nnn)) := rfl

theorem exec_seImm (x : Reg) (nn : Byte) (s : State) : exec (.seImm x nn) s = .next (s.skipIf (s.getV x == nn)) := rfl

theorem exec_sneImm (x : Reg) (nn : Byte) (s : State) : exec (.sneImm x nn) s = .next (s.skipIf (s.getV x != nn)) := rfl

theorem exec_seReg (x y : Reg) (n : Nibble) (s : State) :
    exec (.seReg x y n) s = .next (s.skipIf (s.getV x == s.getV y)) := rfl

theorem exec_sneReg (x y : Reg) (n : Nibble) (s : State) :
    exec (.sneReg x y n) s = .next (s.skipIf (s.getV x != s.getV y)) := rfl

theorem skipIf_beq_pc (s : State) (a b : Byte) : (s.skipIf (a == b)).pc = if a = b then s.pc + 2 else s.pc := by
  simp

theorem skipIf_bne_pc (s : State) (a b : Byte) : (s.skipIf (a != b)).pc = if a = b then s.pc else s.pc + 2 := by
  simp

/-! ### Jumps -/

/-- A jump to a target no word can be fetched from ends the session at the next fetch (R101, R104). -/
theorem step_setPc_of_lt {w : Word} (hr : s.halt = .running) (h : 0xFFE < w.toNat) :
    step (s.setPc w) = .fault (.memOutOfRange (max w.toNat 0x1000)) :=
  step_of_not_canFetch (s := s.setPc w) hr (Nat.not_le.2 h)

/-- Settles O18: JUMP sets pc to the widened operand, and from 0xFFF the next fetch is out of range. -/
theorem jumpGoesToItsAddress : Obligations.JumpGoesToItsAddress := by
  refine ⟨fun _ _ => decodeWord_of_and_mask (.jump 0), fun nnn s => ?_⟩
  have hpc : (zext16 nnn).toNat = nnn.toNat := zext16_toNat nnn (by omega)
  refine ⟨_, exec_jump nnn s, hpc, onlyPc_setPc s _, fun hn hr => ?_⟩
  rw [step_setPc_of_lt hr (by omega), hpc, hn]
  rfl

/-- Settles O22: the sum of a byte and a 12-bit address does not wrap (`jumpi_pc_toNat`). -/
theorem jumpiAddsV0 : Obligations.JumpiAddsV0 :=
  ⟨fun _ _ => decodeWord_of_and_mask (.jumpi 0), fun nnn s =>
    ⟨_, exec_jumpi nnn s, jumpi_pc_toNat _ nnn, onlyPc_setPc s _, fun hlt hr => step_setPc_of_lt hr hlt⟩⟩

/-! ### CALL and RET -/

/-- RET comes back to entry `k` where `k + 1` entries are live (R103). -/
theorem exec_ret_of_sp {k : Fin 16} (h : s.sp.val = k.val + 1) :
    exec .ret s = .next { s with sp := k.castSucc, pc := s.stack[k] } := by
  have hk : s.sp.val - 1 = k.val := by omega
  refine (execRet_of_ne (by omega)).trans ?_
  simp only [hk]
  rfl

/-- Settles O19: below 16 entries `execCall_of_lt`, with pc written at the old SP; with 16, the overflow. -/
theorem callPushesTheReturnAddress : Obligations.CallPushesTheReturnAddress := by
  refine ⟨fun _ _ => decodeWord_of_and_mask (.call 0), fun nnn s => ⟨fun h => ?_, fun h => ?_⟩⟩
  · refine ⟨_, execCall_of_lt nnn h, zext16_toNat nnn (by omega), rfl, fun k hk => ?_, fun k hk => ?_, rfl, fun _ => rfl⟩
    · simp [← hk]
    · exact Vector.getElem_set_ne h k.isLt hk.symm
  · exact execCall_of_not_lt nnn (by omega)

/-- Settles O20: `exec_ret_of_sp`, and the underflow at SP = 0. -/
theorem retPopsTheReturnAddress : Obligations.RetPopsTheReturnAddress :=
  ⟨fun _ _ => decodeWord_of_and_mask .ret, fun _ =>
    ⟨fun _ hk => ⟨_, exec_ret_of_sp hk, rfl, rfl, rfl, fun _ => rfl⟩, execRet_of_eq⟩⟩

/-- Settles O21: the entry RET pops is the one at the SP the CALL started from, which the CALL wrote. -/
theorem retUndoesCall : Obligations.RetUndoesCall := by
  refine fun nnn s h => ⟨_, execCall_of_lt nnn h, fun u hsp hst => ?_⟩
  have hk : u.sp.val = (⟨s.sp.val, h⟩ : Fin 16).val + 1 := congrArg Fin.val hsp
  have htop : u.stack[s.sp.val] = s.pc := by simp [hst]
  rw [exec_ret_of_sp hk]
  simp [htop]

/-! ### Skips -/

/-- Settles O23: both skips write pc alone, by the comparison with NN. -/
theorem immediateSkips : Obligations.ImmediateSkips :=
  ⟨fun _ _ => decodeWord_of_and_mask (.seImm 0 0), fun _ _ => decodeWord_of_and_mask (.sneImm 0 0), fun x nn s =>
    ⟨⟨_, exec_seImm x nn s, onlyPc_setPc s _, skipIf_beq_pc s _ _⟩,
      ⟨_, exec_sneImm x nn s, onlyPc_setPc s _, skipIf_bne_pc s _ _⟩⟩⟩

/-- Settles O24: both skips write pc alone, by the comparison of the two registers; N is not read. -/
theorem registerSkips : Obligations.RegisterSkips :=
  ⟨fun _ _ => decodeWord_of_and_mask (.seReg 0 0 0), fun _ _ => decodeWord_of_and_mask (.sneReg 0 0 0), fun x y n s =>
    ⟨⟨_, exec_seReg x y n s, onlyPc_setPc s _, skipIf_beq_pc s _ _⟩,
      ⟨_, exec_sneReg x y n s, onlyPc_setPc s _, skipIf_bne_pc s _ _⟩⟩⟩

end Sys2Proof.Machine
end

section
/-! The immediate and register operations (41_load_logic.md R120 to R126). -/

namespace Sys2Proof.Machine

/-! ### The instructions that write one data register alone -/

theorem onlyV_setV (s : State) (x : Reg) (b : Byte) : OnlyV s (s.setV x b) := ⟨rfl, memRead_setV s x b⟩

theorem keepsOtherV_setV (s : State) (x : Reg) (b : Byte) : KeepsOtherV x s (s.setV x b) :=
  fun _ => getV_setV_of_ne b

theorem exec_load (x : Reg) (nn : Byte) (s : State) : exec (.load x nn) s = .next (s.setV x nn) := rfl

theorem exec_add (x : Reg) (nn : Byte) (s : State) : exec (.add x nn) s = .next (s.setV x (s.getV x + nn)) := rfl

theorem exec_move (x y : Reg) (s : State) : exec (.move x y) s = .next (s.setV x (s.getV y)) := rfl

theorem exec_or (x y : Reg) (s : State) : exec (.or x y) s = .next (s.setV x (s.getV x ||| s.getV y)) := rfl

theorem exec_and (x y : Reg) (s : State) : exec (.and x y) s = .next (s.setV x (s.getV x &&& s.getV y)) := rfl

theorem exec_xor (x y : Reg) (s : State) : exec (.xor x y) s = .next (s.setV x (s.getV x ^^^ s.getV y)) := rfl

/-! ### Immediates -/

/-- Settles O25: LOAD writes VX alone, with NN. -/
theorem loadSetsTheRegister : Obligations.LoadSetsTheRegister :=
  ⟨fun _ _ => decodeWord_of_and_mask (.load 0 0), fun x nn s =>
    ⟨_, exec_load x nn s, getV_setV_same s x nn, keepsOtherV_setV s x _, onlyV_setV s x _⟩⟩

/-- Settles O26: ADD writes VX alone, with the sum of two bytes, which wraps at 256. -/
theorem addWrapsWithoutFlag : Obligations.AddWrapsWithoutFlag := by
  refine ⟨fun _ _ => decodeWord_of_and_mask (.add 0 0), fun x nn s =>
    ⟨_, exec_add x nn s, ?_, keepsOtherV_setV s x _, onlyV_setV s x _⟩⟩
  rw [getV_setV_same, BitVec.toNat_add]

/-! ### Registers -/

/-- Settles O27: each writes VX alone, with VY or with the bitwise operation of the two old bytes. -/
theorem moveAndLogicWorkBitByBit : Obligations.MoveAndLogicWorkBitByBit := by
  refine ⟨fun _ _ => decodeWord_of_and_mask (.move 0 0), fun _ _ => decodeWord_of_and_mask (.or 0 0),
    fun _ _ => decodeWord_of_and_mask (.and 0 0), fun _ _ => decodeWord_of_and_mask (.xor 0 0), fun x y s =>
    ⟨⟨_, exec_move x y s, getV_setV_same s x _, keepsOtherV_setV s x _, onlyV_setV s x _⟩,
      ⟨_, exec_or x y s, keepsOtherV_setV s x _, onlyV_setV s x _, fun b => ?_⟩,
      ⟨_, exec_and x y s, keepsOtherV_setV s x _, onlyV_setV s x _, fun b => ?_⟩,
      ⟨_, exec_xor x y s, keepsOtherV_setV s x _, onlyV_setV s x _, fun b => ?_⟩⟩⟩
  · rw [getV_setV_same, BitVec.getLsbD_or]
  · rw [getV_setV_same, BitVec.getLsbD_and]
  · rw [getV_setV_same, BitVec.getLsbD_xor]

end Sys2Proof.Machine
end

section
/-! Arithmetic with flags (42_arith_flags.md R130 to R135): the four statements are one about `State.writeFlagged`, with the
flag and the result of each instruction as numbers. -/

namespace Sys2Proof.Machine

open Sys2Proof.Config

/-! ### The two orders of the writes (R130) -/

section Orders

variable {s : State} {x : Reg} (y : Reg) (f r : Byte → Byte → Byte)

theorem onlyV_writeFlagged (s : State) (x : Reg) : OnlyV s (s.writeFlagged x y f r) := by
  refine ⟨writeFlagged_frame s x y f r, fun a => ?_⟩
  rw [writeFlagged_frame]
  rfl

/-- Under flag_first the result reads the flag in place of VF. -/
theorem writeFlagged_getV_dst_of_flagFirst (h : s.params.vfOrder = .flagFirst) :
    (s.writeFlagged x y f r).getV x =
      r (if x = vf then f (s.getV x) (s.getV y) else s.getV x) (if y = vf then f (s.getV x) (s.getV y) else s.getV y) := by
  simp only [State.writeFlagged, h, getV_setV_same, getV_setV]

theorem writeFlagged_getV_vf_of_flagFirst (h : s.params.vfOrder = .flagFirst) (hx : x ≠ vf) :
    (s.writeFlagged x y f r).getV vf = f (s.getV x) (s.getV y) := by
  simp only [State.writeFlagged, h, getV_setV_of_ne _ hx.symm, getV_setV_same]

/-- Under flag_last the flag stays in VF whatever VX is. -/
theorem writeFlagged_getV_vf_of_flagLast (h : s.params.vfOrder = .flagLast) :
    (s.writeFlagged x y f r).getV vf = f (s.getV x) (s.getV y) := by
  simp only [State.writeFlagged, h, getV_setV_same]

theorem writeFlagged_getV_dst_of_flagLast (h : s.params.vfOrder = .flagLast) (hx : x ≠ vf) :
    (s.writeFlagged x y f r).getV x = r (s.getV x) (s.getV y) := by
  simp only [State.writeFlagged, h, getV_setV_of_ne _ hx, getV_setV_same]

end Orders

/-- `t` is `s` after a write of a flag and a result, both given as numbers computed from V[x] and V[y], for every place of
VF among the operands and both orders. -/
def WritesFlagAndResult (flag result : Nat → Nat → Nat) (x y : Reg) (s t : State) : Prop :=
  let a := (s.getV x).toNat
  let b := (s.getV y).toNat
  OnlyV s t ∧ (∀ z, z ≠ x → z ≠ vf → t.getV z = s.getV z) ∧
    (x ≠ vf → y ≠ vf → (t.getV x).toNat = result a b ∧ (t.getV vf).toNat = flag a b) ∧
    (s.params.vfOrder = .flagFirst →
      (x = vf → y ≠ vf → (t.getV vf).toNat = result (flag a b) b) ∧
      (x ≠ vf → y = vf → (t.getV x).toNat = result a (flag a b) ∧ (t.getV vf).toNat = flag a b) ∧
      (x = vf → y = vf → (t.getV vf).toNat = result (flag a b) (flag a b))) ∧
    (s.params.vfOrder = .flagLast → (x ≠ vf → (t.getV x).toNat = result a b) ∧ (t.getV vf).toNat = flag a b)

theorem writeFlagged_writesFlagAndResult {f r : Byte → Byte → Byte} {flag result : Nat → Nat → Nat}
    (hf : ∀ a b, (f a b).toNat = flag a.toNat b.toNat) (hr : ∀ a b, (r a b).toNat = result a.toNat b.toNat)
    (x y : Reg) (s : State) : WritesFlagAndResult flag result x y s (s.writeFlagged x y f r) := by
  refine ⟨onlyV_writeFlagged y f r s x, fun z hx hv => writeFlagged_getV_of_ne y f r (not_or.2 ⟨hx, hv⟩),
    fun hx hy => ?_, fun h => ⟨fun hx hy => ?_, fun hx hy => ?_, fun hx hy => ?_⟩, fun h => ⟨fun hx => ?_, ?_⟩⟩
  · rw [writeFlagged_getV s hx hy, writeFlagged_getV s hx hy, if_pos rfl, if_neg hx.symm, if_pos rfl, hr, hf]
    exact ⟨rfl, rfl⟩
  · subst hx
    rw [writeFlagged_getV_dst_of_flagFirst y f r h, if_pos rfl, if_neg hy, hr, hf]
  · subst hy
    rw [writeFlagged_getV_dst_of_flagFirst vf f r h, writeFlagged_getV_vf_of_flagFirst vf f r h hx, if_neg hx, if_pos rfl,
      hr, hf]
    exact ⟨rfl, rfl⟩
  · subst hx hy
    rw [writeFlagged_getV_dst_of_flagFirst vf f r h, if_pos rfl, hr, hf]
  · rw [writeFlagged_getV_dst_of_flagLast y f r h hx, hr]
  · rw [writeFlagged_getV_vf_of_flagLast y f r h, hf]

/-! ### The flags as numbers (00_scope.md R14) -/

theorem flagByte_decide_toNat (p : Prop) [Decidable p] : (flagByte (decide p)).toNat = if p then 1 else 0 := by
  by_cases h : p <;> simp [flagByte, h]

theorem carryFlag_toNat (a b : Byte) : (carryFlag a b).toNat = if 255 < a.toNat + b.toNat then 1 else 0 :=
  flagByte_decide_toNat _

theorem noBorrowFlag_toNat (a b : Byte) : (noBorrowFlag a b).toNat = if b.toNat ≤ a.toNat then 1 else 0 :=
  flagByte_decide_toNat _

theorem shrFlag_toNat (a : Byte) : (shrFlag a).toNat = a.toNat % 2 := by
  rw [shrFlag, BitVec.toNat_and]
  exact Nat.and_one_is_mod _

/-- The mask 0x80 leaves 128 times bit 7. -/
theorem and_0x80_toNat (a : Byte) : (a &&& 0x80).toNat = a.toNat / 128 * 128 := by
  have hb : (a.toNat.testBit 7).toNat = a.toNat / 128 := by
    have := a.isLt
    rw [Nat.toNat_testBit]
    omega
  rw [BitVec.toNat_and, ← hb]
  exact Nat.and_two_pow _ 7

theorem shlFlag_toNat (a : Byte) : (shlFlag a).toNat = a.toNat / 128 := by
  have hb : (a &&& 0x80 != 0) = decide (a.toNat / 128 * 128 ≠ 0) := by
    rw [← and_0x80_toNat, Bool.eq_iff_iff, bne_iff_ne, decide_eq_true_iff]
    exact BitVec.toNat_ne_iff_ne.symm
  have := a.isLt
  rw [shlFlag, hb, flagByte_decide_toNat]
  split <;> omega

/-! ### The results as numbers -/

theorem sub_toNat (a b : Byte) : (a - b).toNat = (256 + a.toNat - b.toNat) % 256 := by
  have := b.isLt
  rw [BitVec.toNat_sub]
  congr 1
  omega

theorem shr_toNat (a : Byte) : (a >>> 1).toNat = a.toNat / 2 := by
  rw [BitVec.toNat_ushiftRight, Nat.shiftRight_one]

theorem shl_toNat (a : Byte) : (a <<< 1).toNat = 2 * a.toNat % 256 := by
  rw [BitVec.toNat_shiftLeft, Nat.shiftLeft_eq, Nat.mul_comm]

/-! ### What each instruction writes -/

section Instructions

variable (x y : Reg) (s : State)

theorem exec_addr_writes : ∃ t, exec (.addr x y) s = .next t ∧
    WritesFlagAndResult (fun a b => if 255 < a + b then 1 else 0) (fun a b => (a + b) % 256) x y s t :=
  ⟨_, rfl, writeFlagged_writesFlagAndResult carryFlag_toNat BitVec.toNat_add x y s⟩

theorem exec_sub_writes : ∃ t, exec (.sub x y) s = .next t ∧
    WritesFlagAndResult (fun a b => if b ≤ a then 1 else 0) (fun a b => (256 + a - b) % 256) x y s t :=
  ⟨_, rfl, writeFlagged_writesFlagAndResult noBorrowFlag_toNat sub_toNat x y s⟩

theorem exec_subn_writes : ∃ t, exec (.subn x y) s = .next t ∧
    WritesFlagAndResult (fun a b => if a ≤ b then 1 else 0) (fun a b => (256 + b - a) % 256) x y s t :=
  ⟨_, rfl, writeFlagged_writesFlagAndResult (fun a b => noBorrowFlag_toNat b a) (fun a b => sub_toNat b a) x y s⟩

theorem exec_shr_writes : ∃ t, exec (.shr x y) s = .next t ∧
    WritesFlagAndResult (fun a _ => a % 2) (fun a _ => a / 2) x x s t :=
  ⟨_, rfl, writeFlagged_writesFlagAndResult (fun a _ => shrFlag_toNat a) (fun a _ => shr_toNat a) x x s⟩

theorem exec_shl_writes : ∃ t, exec (.shl x y) s = .next t ∧
    WritesFlagAndResult (fun a _ => a / 128) (fun a _ => 2 * a % 256) x x s t :=
  ⟨_, rfl, writeFlagged_writesFlagAndResult (fun a _ => shlFlag_toNat a) (fun a _ => shl_toNat a) x x s⟩

end Instructions

/-! ### The statements -/

/-- Settles O28: where both operands are VF, the two flags add up to at most 2, which does not wrap. -/
theorem addrAddsAndSetsCarry : Obligations.AddrAddsAndSetsCarry := by
  refine ⟨fun _ _ => decodeWord_of_and_mask (.addr 0 0), fun x y s => ?_⟩
  obtain ⟨t, he, honly, hothers, hplain, hfirst, hlast⟩ := exec_addr_writes x y s
  refine ⟨t, he, honly, hothers, hplain, fun h => ?_, hlast⟩
  obtain ⟨hdst, hsrc, hboth⟩ := hfirst h
  refine ⟨hdst, hsrc, fun hx hy => (hboth hx hy).trans (Nat.mod_eq_of_lt ?_)⟩
  dsimp only
  split <;> decide

/-- Settles O29: where both operands are VF, the flag is subtracted from itself. -/
theorem subSubtractsAndSetsNoBorrow : Obligations.SubSubtractsAndSetsNoBorrow := by
  refine ⟨fun _ _ => decodeWord_of_and_mask (.sub 0 0), fun x y s => ?_⟩
  obtain ⟨t, he, honly, hothers, hplain, hfirst, hlast⟩ := exec_sub_writes x y s
  refine ⟨t, he, honly, hothers, hplain, fun h => ?_, hlast⟩
  obtain ⟨hdst, hsrc, hboth⟩ := hfirst h
  exact ⟨hdst, hsrc, fun hx hy => (hboth hx hy).trans (congrArg (· % 256) (Nat.add_sub_cancel ..))⟩

/-- Settles O30: where both operands are VF, the flag is subtracted from itself. -/
theorem subnSubtractsTheOtherWay : Obligations.SubnSubtractsTheOtherWay := by
  refine ⟨fun _ _ => decodeWord_of_and_mask (.subn 0 0), fun x y s => ?_⟩
  obtain ⟨t, he, honly, hothers, hplain, hfirst, hlast⟩ := exec_subn_writes x y s
  refine ⟨t, he, honly, hothers, hplain, fun h => ?_, hlast⟩
  obtain ⟨hdst, hsrc, hboth⟩ := hfirst h
  exact ⟨hdst, hsrc, fun hx hy => (hboth hx hy).trans (congrArg (· % 256) (Nat.add_sub_cancel ..))⟩

/-- A shift has VX as both operands: what it leaves in VF where VX is VF, in one equation for both orders. -/
theorem WritesFlagAndResult.getV_vf_of_same {flag result : Nat → Nat → Nat} {x : Reg} {s t : State}
    (h : WritesFlagAndResult flag result x x s t) (hx : x = vf) :
    let a := (s.getV x).toNat
    (t.getV vf).toNat = if s.params.vfOrder = .flagFirst then result (flag a a) (flag a a) else flag a a := by
  obtain ⟨-, -, -, hfirst, hlast⟩ := h
  cases ho : s.params.vfOrder with
  | flagFirst =>
    obtain ⟨-, -, hboth⟩ := hfirst ho
    exact hboth hx hx
  | flagLast =>
    obtain ⟨-, hflag⟩ := hlast ho
    exact hflag

/-- Settles O31: where VX is VF, under flag_first SHR shifts the flag out, which leaves 0, and SHL doubles it. -/
theorem shiftsMoveOneBitOut : Obligations.ShiftsMoveOneBitOut := by
  refine ⟨fun _ _ => decodeWord_of_and_mask (.shr 0 0), fun _ _ => decodeWord_of_and_mask (.shl 0 0), fun x y s =>
    ⟨?_, ?_⟩⟩
  · obtain ⟨t, he, hw⟩ := exec_shr_writes x y s
    have ⟨honly, hothers, hplain, _⟩ := hw
    refine ⟨t, he, honly, hothers, fun hx => hplain hx hx, fun hx =>
      (hw.getV_vf_of_same hx).trans (if_congr Iff.rfl ?_ rfl)⟩
    exact Nat.div_eq_of_lt (Nat.mod_lt _ (by decide))
  · obtain ⟨t, he, hw⟩ := exec_shl_writes x y s
    have ⟨honly, hothers, hplain, _⟩ := hw
    refine ⟨t, he, honly, hothers, fun hx => hplain hx hx, fun hx =>
      (hw.getV_vf_of_same hx).trans (if_congr Iff.rfl ?_ rfl)⟩
    have := (s.getV x).isLt
    exact Nat.mod_eq_of_lt (by omega)

end Sys2Proof.Machine
end

section
/-! The index register and the memory blocks (43_index_memory.md R140 to R146). -/

namespace Sys2Proof.Machine

variable {s : State}

/-! ### The instructions that write I alone -/

theorem onlyI_setI (s : State) (w : Word) : OnlyI s (s.setI w) := ⟨rfl, fun _ => rfl⟩

theorem exec_loadi (nnn : Addr12) (s : State) : exec (.loadi nnn) s = .next (s.setI (zext16 nnn)) := rfl

theorem exec_addi (x : Reg) (s : State) : exec (.addi x) s = .next (s.setI (s.i + zext16 (s.getV x))) := rfl

theorem exec_ldspr (x : Reg) (s : State) : exec (.ldspr x) s = .next (s.setI (glyphAddr (s.getV x))) := rfl

/-- Five times a byte does not wrap (R143). -/
theorem glyphAddr_toNat (d : Byte) : (glyphAddr d).toNat = d.toNat * 5 := by
  have hd : (zext16 d).toNat = d.toNat := zext16_toNat d (by omega)
  rw [glyphAddr, BitVec.toNat_mul, hd]
  exact Nat.mod_eq_of_lt (show d.toNat * 5 < 65536 by omega)

/-- Settles O32: both write I alone, LOADI with the widened operand and LDSPR with `glyphAddr`. -/
theorem loadiAndLdsprSetI : Obligations.LoadiAndLdsprSetI :=
  ⟨fun _ _ => decodeWord_of_and_mask (.loadi 0), fun _ _ => decodeWord_of_and_mask (.ldspr 0),
    fun nnn s => ⟨_, exec_loadi nnn s, zext16_toNat nnn (by omega), onlyI_setI s _⟩,
    fun x s => ⟨_, exec_ldspr x s, glyphAddr_toNat _, onlyI_setI s _⟩⟩

/-- Settles O33: ADDI writes I alone, with a sum of 16 bits. -/
theorem addiWrapsWithoutFlag : Obligations.AddiWrapsWithoutFlag := by
  refine ⟨fun _ _ => decodeWord_of_and_mask (.addi 0), fun x s => ⟨_, exec_addi x s, ?_, onlyI_setI s _⟩⟩
  rw [setI_i, BitVec.toNat_add, zext16_toNat _ (by omega)]

/-! ### The range check of a block -/

theorem checkedRange_of_le {base n : Nat} (h : base + n ≤ memSize) (t : State) : checkedRange base n t = .next t := by
  rcases checkedRange_cases base n t with ⟨-, e⟩ | ⟨-, hlt, -⟩
  · exact e
  · exact absurd h (Nat.not_le.2 hlt)

theorem checkedRange_of_lt {base n : Nat} (hn : n ≠ 0) (h : memSize < base + n) (t : State) :
    checkedRange base n t = .fault (.memOutOfRange (max base memSize)) := by
  rcases checkedRange_cases base n t with ⟨h0 | hle, -⟩ | ⟨-, -, e⟩
  · exact absurd h0 hn
  · exact absurd hle (Nat.not_le.2 h)
  · exact e

theorem exec_bcd (x : Reg) (s : State) :
    exec (.bcd x) s = checkedRange s.i.toNat 3 (s.memWriteBytes s.i.toNat (bcdDigits (s.getV x))) := rfl

theorem exec_stor (x : Reg) (s : State) :
    exec (.stor x) s = checkedRange s.i.toNat (x.val + 1) (s.storeRegs (blockRegs x)) := rfl

theorem exec_read (x : Reg) (s : State) :
    exec (.read x) s = checkedRange s.i.toNat (x.val + 1) (s.loadRegs (blockRegs x)) := rfl

/-- A block that starts at I and ends in memory: I past it does not wrap. -/
theorem i_add_toNat {n : Nat} (h : s.i.toNat + n ≤ memSize) : (s.i + BitVec.ofNat 16 n).toNat = s.i.toNat + n := by
  simp only [memSize] at h
  have hn : (BitVec.ofNat 16 n).toNat = n := Nat.mod_eq_of_lt (by omega)
  rw [BitVec.toNat_add_of_lt (by omega), hn]

/-! ### BCD -/

theorem memRead_memWriteBytes_getElem {base k : Nat} {bs : List Byte} (hw : s.mem.wf s.params = true)
    (h : base + bs.length ≤ memSize) (hk : k < bs.length) : (s.memWriteBytes base bs).memRead (base + k) = bs[k] := by
  rw [memRead_memWriteBytes s _ _ _ hw h, dif_pos ⟨by omega, by omega⟩]
  simp only [Nat.add_sub_cancel_left]

theorem memRead_memWriteBytes_of_outside {base a : Nat} {bs : List Byte} (hw : s.mem.wf s.params = true)
    (h : base + bs.length ≤ memSize) (ha : a < base ∨ base + bs.length ≤ a) :
    (s.memWriteBytes base bs).memRead a = s.memRead a := by
  rw [memRead_memWriteBytes s _ _ _ hw h, dif_neg (by omega)]

/-- Settles O34: the three digits of VX stored from I on, under the range check of three bytes. -/
theorem bcdStoresThreeDigits : Obligations.BcdStoresThreeDigits := by
  refine ⟨fun _ _ => decodeWord_of_and_mask (.bcd 0), fun x s hw => ⟨fun hi => ?_, fun hi => ?_⟩⟩
  · have hfit : s.i.toNat + (bcdDigits (s.getV x)).length ≤ memSize := show s.i.toNat + 3 ≤ 4096 by omega
    have hdigit (k : Nat) (hk : k < 3) := congrArg BitVec.toNat (memRead_memWriteBytes_getElem hw hfit hk)
    exact ⟨_, (exec_bcd x s).trans (checkedRange_of_le hfit _), memWriteBytes_frame ..,
      (hdigit 0 (by decide)).trans BitVec.toNat_udiv,
      (hdigit 1 (by decide)).trans (BitVec.toNat_umod.trans (congrArg (· % 10) BitVec.toNat_udiv)),
      (hdigit 2 (by decide)).trans BitVec.toNat_umod,
      fun a ha => memRead_memWriteBytes_of_outside hw hfit ha⟩
  · exact (exec_bcd x s).trans (checkedRange_of_lt (by decide) (show 4096 < s.i.toNat + 3 by omega) _)

/-! ### STOR and READ -/

theorem memRead_storeRegs_of_outside {rs : List Reg} {a : Nat} (hw : s.mem.wf s.params = true)
    (h : s.i.toNat + rs.length ≤ memSize) (ha : a < s.i.toNat ∨ s.i.toNat + rs.length ≤ a) :
    (s.storeRegs rs).memRead a = s.memRead a := by
  rw [memRead_storeRegs h]
  exact memRead_memWriteBytes_of_outside hw (by simpa using h) (by simpa using ha)

/-- Settles O35: the loop of STOR over its block, under the range check of the block. -/
theorem storStoresTheBlock : Obligations.StorStoresTheBlock := by
  refine ⟨fun _ _ => decodeWord_of_and_mask (.stor 0), fun x s hw => ⟨fun hi => ?_, fun hi => ?_⟩⟩
  · have hlen := length_blockRegs x
    have hfit : s.i.toNat + (blockRegs x).length ≤ memSize := by rw [hlen, memSize]; omega
    refine ⟨_, exec_stor_of_le hi, storeRegs_frame .., ?_, fun r hr => memRead_storeRegs_blockRegs hw hi hr, fun a ha => ?_⟩
    · rw [storeRegs_i, i_add_toNat hfit, hlen, Nat.add_assoc]
    · exact memRead_storeRegs_of_outside hw hfit (by omega)
  · exact (exec_stor x s).trans (checkedRange_of_lt (by omega) (show 4096 < s.i.toNat + (x.val + 1) by omega) _)

theorem memRead_loadRegs (rs : List Reg) (a : Nat) : (s.loadRegs rs).memRead a = s.memRead a := by
  rw [loadRegs_frame]
  rfl

/-- Of distinct registers, each is loaded once, from its own distance to I (R146). -/
theorem loadRegs_getV_getElem {rs : List Reg} (hd : rs.Nodup) (h : s.i.toNat + rs.length ≤ memSize) {k : Nat}
    (hk : k < rs.length) : (s.loadRegs rs).getV rs[k] = s.memRead (s.i.toNat + k) := by
  induction rs generalizing s k with
  | nil => cases hk
  | cons r rs ih =>
    obtain ⟨hr, hd⟩ := List.nodup_cons.1 hd
    rw [List.length_cons] at h hk
    rw [State.loadRegs]
    cases k with
    | zero => exact (loadRegs_getV_of_notMem hr).trans (getV_setV_same s r _)
    | succ k =>
      have hi : (s.i + 1).toNat = s.i.toNat + 1 := i_add_toNat (n := 1) (by omega)
      rw [List.getElem_cons_succ, ih hd (by rw [setI_i, hi]; omega) (by omega), setI_i, hi, memRead_setI, memRead_setV,
        Nat.add_assoc, Nat.add_comm 1 k]

theorem nodup_blockRegs (x : Reg) : (blockRegs x).Nodup :=
  (List.nodup_finRange 16).sublist (List.take_sublist _ _)

/-- Settles O36: the loop of READ over its block, under the range check of the block. -/
theorem readLoadsTheBlock : Obligations.ReadLoadsTheBlock := by
  refine ⟨fun _ _ => decodeWord_of_and_mask (.read 0), fun x s => ⟨fun hi => ?_, fun hi => ?_⟩⟩
  · have hlen := length_blockRegs x
    have hfit : s.i.toNat + (blockRegs x).length ≤ memSize := by rw [hlen, memSize]; omega
    have he := (exec_read x s).trans (checkedRange_of_le (by rwa [hlen] at hfit) _)
    refine ⟨_, he, loadRegs_frame .., ?_, fun r hr => ?_, fun r hr => ?_, memRead_loadRegs _⟩
    · rw [loadRegs_i, i_add_toNat hfit, hlen, Nat.add_assoc]
    · have hk : r.val < (blockRegs x).length := by omega
      simpa only [getElem_blockRegs hk] using loadRegs_getV_getElem (nodup_blockRegs x) hfit hk
    · exact loadRegs_getV_of_notMem fun hm => Nat.not_le.2 hr (mem_blockRegs.1 hm)
  · exact (exec_read x s).trans (checkedRange_of_lt (by omega) (show 4096 < s.i.toNat + (x.val + 1) by omega) _)

end Sys2Proof.Machine
end

section
/-! The display (44_display.md R151 to R154): CLS, the sprite DRAW puts on the framebuffer, and what two DRAWs cancel. -/

namespace Sys2Proof.Machine

variable {s t u : State}

/-! ### Pixels -/

theorem fb_eq_of_pixel_eq (h : ∀ px py, s.pixel px py = t.pixel px py) : s.fb = t.fb :=
  Vector.ext fun y hy => Vector.ext fun x hx => h ⟨x, hx⟩ ⟨y, hy⟩

theorem pixel_congr (h : s.fb = t.fb) (px : Fin 64) (py : Fin 32) : s.pixel px py = t.pixel px py :=
  congrArg (fun fb : Frame => fb[py][px]) h

theorem pixel_of_blankFrame (h : s.fb = blankFrame) (px : Fin 64) (py : Fin 32) : s.pixel px py = false := by
  simp [State.pixel, h, blankFrame]

/-! ### CLS -/

theorem exec_cls (s : State) : exec .cls s = .next { s with fb := blankFrame } := rfl

/-- Settles O38: CLS writes the framebuffer alone, with the blank one. -/
theorem clsClearsEveryPixel : Obligations.ClsClearsEveryPixel :=
  ⟨fun _ _ => decodeWord_of_and_mask .cls, fun s =>
    ⟨_, exec_cls s, pixel_of_blankFrame rfl, rfl, fun _ => rfl⟩⟩

/-- A completed instruction other than DRAW keeps a blank framebuffer (R154(b)). -/
theorem exec_keeps_blankFrame {i : Instr} (h : exec i s = .next t) (hd : ∀ x y n, i ≠ .draw x y n)
    (hb : s.fb = blankFrame) : t.fb = blankFrame := by
  by_cases hc : i = .cls
  · subst hc; cases h; rfl
  · rw [exec_fb h hc hd, hb]

theorem execAll_cons_next {i : Instr} {is : List Instr} (h : execAll (i :: is) s = .next u) :
    ∃ t, exec i s = .next t ∧ execAll is t = .next u := by
  rw [execAll] at h
  split at h
  next t ht => exact ⟨t, ht, h⟩
  all_goals cases h

theorem execAll_keeps_blankFrame {is : List Instr} (h : execAll is s = .next t)
    (hd : ∀ i ∈ is, ∀ x y n, i ≠ .draw x y n) (hb : s.fb = blankFrame) : t.fb = blankFrame := by
  induction is generalizing s with
  | nil => cases h; exact hb
  | cons i is ih =>
    obtain ⟨hi, his⟩ := List.forall_mem_cons.1 hd
    obtain ⟨u, hu, ht⟩ := execAll_cons_next h
    exact ih ht his (exec_keeps_blankFrame hu hi hb)

/-- Settles O41: CLS leaves the blank framebuffer, which every instruction but DRAW keeps. -/
theorem nothingButDrawLightsAPixel : Obligations.NothingButDrawLightsAPixel := by
  intro is s t hd h
  obtain ⟨u, hu, ht⟩ := execAll_cons_next h
  cases hu
  exact pixel_of_blankFrame (execAll_keeps_blankFrame ht hd rfl)

/-! ### DRAW -/

section Sprite

variable {x0 y0 : Byte} {n : Nibble} {px : Fin 64} {py : Fin 32}

/-- The state DRAW leaves when it completes: the sprite of `n` rows at I is on the framebuffer at (x0, y0), and VF is the
collision flag (R152). -/
def State.drawSprite (s : State) (x0 y0 : Byte) (n : Nibble) : State :=
  let c := drawRows x0 y0 0 (s.memReadBytes s.i.toNat n.val) ⟨s.fb, false⟩
  { s with fb := c.fb }.setV vf (flagByte c.hit)

theorem exec_draw (x y : Reg) (n : Nibble) (s : State) :
    exec (.draw x y n) s = checkedRange s.i.toNat n.val (s.drawSprite (s.getV x) (s.getV y) n) := rfl

theorem checkedRange_of_inRange {base k : Nat} (h : k = 0 ∨ base + k ≤ memSize) (t : State) :
    checkedRange base k t = .next t := by
  rw [checkedRange, firstOutOfRange_none.2 h]

theorem exec_draw_of_inRange (h : n.val = 0 ∨ s.i.toNat + n.val ≤ 0x1000) (x y : Reg) :
    exec (.draw x y n) s = .next (s.drawSprite (s.getV x) (s.getV y) n) :=
  checkedRange_of_inRange h _

/-- A sprite has fewer rows than the framebuffer, so no two of its rows wrap onto one another. -/
theorem length_memReadBytes_le (s : State) (a : Nat) (n : Nibble) : 0 + (s.memReadBytes a n.val).length ≤ 32 := by
  simp only [State.memReadBytes, List.length_map, List.length_range]
  omega

theorem drawSprite_pixel_of_covers (h : s.spriteCovers x0 y0 n.val px py) :
    (s.drawSprite x0 y0 n).pixel px py = !s.pixel px py :=
  (drawRows_spec x0 y0 _ 0 ⟨s.fb, false⟩ (length_memReadBytes_le s _ n)).1 px py ((rowsCover_memReadBytes ..).2 h)

theorem drawSprite_pixel_of_not_covers (h : ¬ s.spriteCovers x0 y0 n.val px py) :
    (s.drawSprite x0 y0 n).pixel px py = s.pixel px py :=
  (drawRows_spec x0 y0 _ 0 ⟨s.fb, false⟩ (length_memReadBytes_le s _ n)).2.1 px py
    (mt (rowsCover_memReadBytes ..).1 h)

theorem flagByte_eq_one_iff {c : Bool} : flagByte c = 1 ↔ c = true := by
  cases c <;> decide

theorem flagByte_eq_zero_iff {c : Bool} : flagByte c = 0 ↔ c = false := by
  cases c <;> decide

theorem drawSprite_getV_vf (s : State) (x0 y0 : Byte) (n : Nibble) : (s.drawSprite x0 y0 n).getV 15 =
    flagByte (drawRows x0 y0 0 (s.memReadBytes s.i.toNat n.val) ⟨s.fb, false⟩).hit :=
  getV_setV_same _ vf _

/-- The sprite hits where a pixel it covers is on (R152). -/
theorem drawRows_hit_iff : (drawRows x0 y0 0 (s.memReadBytes s.i.toNat n.val) ⟨s.fb, false⟩).hit = true ↔
    ∃ px py, s.spriteCovers x0 y0 n.val px py ∧ s.pixel px py = true := by
  simpa [rowsCover_memReadBytes, State.pixel] using
    (drawRows_spec x0 y0 _ 0 ⟨s.fb, false⟩ (length_memReadBytes_le s s.i.toNat n)).2.2

theorem drawSprite_getV_vf_eq_one_iff : (s.drawSprite x0 y0 n).getV 15 = 1 ↔
    ∃ px py, s.spriteCovers x0 y0 n.val px py ∧ s.pixel px py = true := by
  rw [drawSprite_getV_vf, flagByte_eq_one_iff, drawRows_hit_iff]

theorem drawSprite_getV_vf_eq_zero (h : ∀ px py, s.spriteCovers x0 y0 n.val px py → s.pixel px py = false) :
    (s.drawSprite x0 y0 n).getV 15 = 0 := by
  rw [drawSprite_getV_vf, flagByte_eq_zero_iff, Bool.eq_false_iff, Ne, drawRows_hit_iff]
  rintro ⟨px, py, hcov, hon⟩
  cases (h px py hcov).symm.trans hon

/-- Which pixels a sprite covers depends on I and memory alone. -/
theorem spriteCovers_congr (hi : u.i = s.i) (hm : ∀ a, u.memRead a = s.memRead a) :
    u.spriteCovers x0 y0 n.val px py ↔ s.spriteCovers x0 y0 n.val px py := by
  simp only [State.spriteCovers, hi, hm]

section Twice

variable (hfb : u.fb = (s.drawSprite x0 y0 n).fb) (hi : u.i = s.i) (hm : ∀ a, u.memRead a = s.memRead a)
include hfb hi hm

/-- Each pixel is inverted by both DRAWs or by none (R154(a)). -/
theorem drawSprite_twice_pixel (px : Fin 64) (py : Fin 32) : (u.drawSprite x0 y0 n).pixel px py = s.pixel px py := by
  by_cases hcov : s.spriteCovers x0 y0 n.val px py
  · rw [drawSprite_pixel_of_covers ((spriteCovers_congr hi hm).2 hcov), pixel_congr hfb,
      drawSprite_pixel_of_covers hcov, Bool.not_not]
  · rw [drawSprite_pixel_of_not_covers (mt (spriteCovers_congr hi hm).1 hcov), pixel_congr hfb,
      drawSprite_pixel_of_not_covers hcov]

/-- A covered pixel is on for the second DRAW exactly when it was off for the first (C6). -/
theorem drawSprite_twice_getV_vf_eq_one_iff : (u.drawSprite x0 y0 n).getV 15 = 1 ↔
    ∃ px py, s.spriteCovers x0 y0 n.val px py ∧ s.pixel px py = false := by
  rw [drawSprite_getV_vf_eq_one_iff]
  refine exists_congr fun px => exists_congr fun py => ?_
  rw [spriteCovers_congr hi hm, pixel_congr hfb]
  refine and_congr_right fun hcov => ?_
  rw [drawSprite_pixel_of_covers hcov, Bool.not_eq_true']

end Twice

end Sprite

/-- Settles O39: `State.drawSprite` under the range check of the sprite's rows. -/
theorem drawTogglesTheCoveredPixels : Obligations.DrawTogglesTheCoveredPixels := by
  refine ⟨fun _ _ => decodeWord_of_and_mask (.draw 0 0 0), fun x y n s => ⟨fun hin => ?_, fun hn hlt => ?_⟩⟩
  · exact ⟨_, exec_draw_of_inRange hin x y, rfl, keepsOtherV_setV { s with fb := _ } vf _,
      fun _ _ => drawSprite_pixel_of_covers, fun _ _ => drawSprite_pixel_of_not_covers,
      drawSprite_getV_vf_eq_one_iff.2, drawSprite_getV_vf_eq_zero, fun _ => rfl⟩
  · exact (exec_draw x y n s).trans (checkedRange_of_lt hn hlt _)

/-- Settles O40: the second DRAW covers the same pixels, and finds each of them inverted. -/
theorem drawTwiceRestoresTheFramebuffer : Obligations.DrawTwiceRestoresTheFramebuffer := by
  refine fun x y n s hin => ⟨_, exec_draw_of_inRange hin x y, fun u hfb hi hm hx hy => ?_⟩
  have hexec := exec_draw_of_inRange (s := u) (by rwa [hi]) x y
  rw [hx, hy] at hexec
  exact ⟨_, hexec, fb_eq_of_pixel_eq (drawSprite_twice_pixel hfb hi hm), drawSprite_twice_getV_vf_eq_one_iff hfb hi hm⟩

end Sys2Proof.Machine
end

section
/-! Input and timers (45_input_timer.md R161 to R166): the key skips, the four cases of KEYD, the moves between VX and the
timers, and the invariant of the key wait. -/

namespace Sys2Proof.Machine

open Sys2Proof.Config

variable {s t : State} {x : Reg} {k : Fin 16}

/-! ### The key wait: one equation for each case of KEYD (R163) -/

theorem pickKey_eq_none {p : Params} {key : Vector Bool 16} (h : ∀ k : Fin 16, key[k] = false) : pickKey p key = none := by
  cases hp : pickKey p key with
  | none => rfl
  | some k => cases (h k).symm.trans (pickKey_some hp)

theorem exists_pickKey_eq_some (p : Params) {key : Vector Bool 16} (h : ∃ k : Fin 16, key[k] = true) :
    ∃ k, pickKey p key = some k := by
  obtain ⟨j, hj⟩ := h
  cases hp : pickKey p key with
  | none => cases hj.symm.trans (pickKey_none hp j)
  | some k => exact ⟨k, rfl⟩

/-- The default KEYD_PICK leaves no pressed key below the one it picks (D13). -/
theorem pickKey_lowest {p : Params} {key : Vector Bool 16} (hl : p.keydPick = .lowest) (h : pickKey p key = some k) :
    ∀ j : Fin 16, j < k → key[j] = false := by
  rw [pickKey, hl] at h
  exact (lowestPressed_some h).2

theorem keyWait_of_no_key (hw : s.kw = .idle) (h : ∀ k : Fin 16, s.key[k] = false) (x : Reg) :
    s.keyWait x = s.setPc (s.pc - 2) := by
  simp only [State.keyWait, hw, pickKey_eq_none h, rewindPc_eq]

theorem keyWait_of_pick (hw : s.kw = .idle) (hp : pickKey s.params s.key = some k) (x : Reg) :
    s.keyWait x = { s.setV x (BitVec.ofNat 8 k.val) with kw := .captured k, pc := s.pc - 2 } := by
  simp only [State.keyWait, hw, hp]
  rfl

theorem keyWait_of_pressed (hw : s.kw = .captured k) (h : s.key[k] = true) (x : Reg) :
    s.keyWait x = s.setPc (s.pc - 2) := by
  simp only [State.keyWait, hw, h, if_true, rewindPc_eq]

theorem keyWait_of_released (hw : s.kw = .captured k) (h : s.key[k] = false) (x : Reg) :
    s.keyWait x = { s with kw := .idle } := by
  simp only [State.keyWait, hw, h]
  rfl

theorem exec_keyd (x : Reg) (s : State) : exec (.keyd x) s = .next (s.keyWait x) := rfl

/-- Where KEYD leaves a key captured, it went back to its own address, and VX holds that key. -/
theorem keyWait_captured (hs : s.kw = .captured k → s.getV x = BitVec.ofNat 8 k.val)
    (h : (s.keyWait x).kw = .captured k) :
    (s.keyWait x).pc = s.pc - 2 ∧ (s.keyWait x).getV x = BitVec.ofNat 8 k.val := by
  rcases keyWait_cases s x with ⟨hw, -, e⟩ | ⟨j, -, -, -, e⟩ | ⟨j, -, -, e⟩ | ⟨j, -, -, e⟩ <;> rw [e] at h ⊢
  · cases hw.symm.trans h
  · cases h
    exact ⟨rfl, getV_setV_same s x _⟩
  · exact ⟨rfl, hs h⟩
  · cases h

/-! ### The invariant of the key wait (R163) -/

/-- While the latch holds a key, the word a tick fetches is the KEYD whose register holds that key. -/
theorem State.KeyWaitInv.fetchedWord_eq (hi : s.KeyWaitInv) (hw : s.kw = .captured k) :
    ∃ x, decodeWord s.params.strict59 s.fetchedWord = some (.keyd x) ∧ s.getV x = BitVec.ofNat 8 k.val := by
  obtain ⟨w, x, hf, hd, hv⟩ := hi k hw
  cases hf.symm.trans (fetch_ok s (canFetch_of_fetch s hf))
  exact ⟨x, hd, hv⟩

theorem fetch_congr (hm : t.mem = s.mem) (hp : t.params = s.params) (hpc : t.pc = s.pc) : t.fetch = s.fetch := by
  simp only [State.fetch, State.memRead, hm, hp, hpc]

/-- Only KEYD leaves a key captured: another instruction keeps the latch, which held no key under the invariant. -/
theorem exec_captured {i : Instr} (hi : s.KeyWaitInv) (hd : decodeWord s.params.strict59 s.fetchedWord = some i)
    (he : exec i s.entryState = .next t) (hw : t.kw = .captured k) : ∃ x, i = .keyd x := by
  by_contra hne
  have hkw : t.kw = s.kw := .trans (exec_kw he fun x hx => hne ⟨x, hx⟩) rfl
  obtain ⟨x, hx, -⟩ := hi.fetchedWord_eq (hkw.symm.trans hw)
  exact hne ⟨x, Option.some.inj (hd.symm.trans hx)⟩

/-- Settles O59: a key is captured after a tick only by KEYD, which went back to its own word and touched no memory. -/
theorem everyTickKeepsTheKeyWaitSound : Obligations.EveryTickKeepsTheKeyWaitSound := by
  intro s t hi h k hw
  obtain ⟨hc, ⟨hd, rfl⟩ | ⟨i, hd, he⟩⟩ := step_next h
  · obtain ⟨x, hx, -⟩ := hi.fetchedWord_eq (k := k) hw
    cases hd.symm.trans hx
  · obtain ⟨x, rfl⟩ := exec_captured hi hd he hw
    have hreg (hs : s.kw = .captured k) : s.getV x = BitVec.ofNat 8 k.val := by
      obtain ⟨y, hy, hv⟩ := hi.fetchedWord_eq hs
      cases hd.symm.trans hy
      exact hv
    have hmem : t.mem = s.mem := .trans (exec_mem he (by simp) (by simp)) rfl
    have hparams : t.params = s.params := .trans (exec_params he) rfl
    cases he
    obtain ⟨hpc, hv⟩ := keyWait_captured (s := s.entryState) hreg hw
    have hfetch := fetch_congr hmem hparams (hpc.trans (entryState_pc_sub_two s))
    refine ⟨s.fetchedWord, x, hfetch.trans (fetch_ok s hc), ?_, hv⟩
    rw [hparams]
    exact hd

/-! ### KEYD -/

/-- Settles O43: the four equations of `State.keyWait`. -/
theorem keydCapturesThenWaitsForTheRelease : Obligations.KeydCapturesThenWaitsForTheRelease := by
  refine ⟨fun _ _ => decodeWord_of_and_mask (.keyd 0), fun x s => ⟨_, exec_keyd x s, fun hw h => keyWait_of_no_key hw h x,
    fun hw h => ?_, fun _ hw h => keyWait_of_pressed hw h x, fun _ hw h => keyWait_of_released hw h x⟩⟩
  obtain ⟨k, hp⟩ := exists_pickKey_eq_some s.params h
  have hval : (BitVec.ofNat 8 k.val).toNat = k.val := Nat.mod_eq_of_lt (by omega)
  rw [keyWait_of_pick hw hp]
  exact ⟨k, pickKey_some hp, fun hl => pickKey_lowest hl hp, (congrArg BitVec.toNat (getV_setV_same s x _)).trans hval,
    keepsOtherV_setV s x _, rfl⟩

/-! ### The key skips (R161, R162) -/

theorem keyOperand_of_eq (h : (s.getV x).toNat = k.val) : s.keyOperand x = .ok k := by
  rcases keyOperand_cases s x with ⟨j, hj, e⟩ | ⟨hlt, -⟩
  · obtain rfl : j = k := Fin.ext (hj.symm.trans h)
    exact e
  · omega

theorem keyOperand_of_lt (h : 15 < (s.getV x).toNat) : s.keyOperand x = .error (.keyIndexOutOfRange (s.getV x)) :=
  (keyOperand_cases s x).elim (fun ⟨_, hj, _⟩ => absurd h (by omega)) fun ⟨_, e⟩ => e

theorem exec_skpr_of_ok (h : s.keyOperand x = .ok k) : exec (.skpr x) s = .next (s.skipIf s.key[k]) := by
  simp only [exec, execSkpr, h]

theorem exec_skup_of_ok (h : s.keyOperand x = .ok k) : exec (.skup x) s = .next (s.skipIf (!s.key[k])) := by
  simp only [exec, execSkup, h]

theorem exec_skpr_of_error {r : Fault} (h : s.keyOperand x = .error r) : exec (.skpr x) s = .fault r := by
  simp only [exec, execSkpr, h, raiseFatal]

theorem exec_skup_of_error {r : Fault} (h : s.keyOperand x = .error r) : exec (.skup x) s = .fault r := by
  simp only [exec, execSkup, h, raiseFatal]

theorem skipIf_not_pc (s : State) (c : Bool) : (s.skipIf (!c)).pc = if c = true then s.pc else s.pc + 2 := by
  cases c <;> rfl

/-- Settles O42: both skips write pc alone, by the key VX names, and fault where it names none. -/
theorem keySkips : Obligations.KeySkips :=
  ⟨fun _ _ => decodeWord_of_and_mask (.skpr 0), fun _ _ => decodeWord_of_and_mask (.skup 0), fun _ s =>
    ⟨fun _ hk => ⟨⟨_, exec_skpr_of_ok (keyOperand_of_eq hk), onlyPc_setPc s _, rfl⟩,
      ⟨_, exec_skup_of_ok (keyOperand_of_eq hk), onlyPc_setPc s _, skipIf_not_pc s _⟩⟩,
    fun hlt => ⟨exec_skpr_of_error (keyOperand_of_lt hlt), exec_skup_of_error (keyOperand_of_lt hlt)⟩⟩⟩

/-! ### The timers (R164 to R166) -/

theorem exec_moved (x : Reg) (s : State) : exec (.moved x) s = .next (s.setV x s.dt) := rfl

theorem exec_loadd (x : Reg) (s : State) : exec (.loadd x) s = .next { s with dt := s.getV x } := rfl

theorem exec_loads (x : Reg) (s : State) : exec (.loads x) s = .next { s with st := s.getV x } := rfl

/-- The tone is on exactly while ST is above 0 (10_state.md R31). -/
theorem soundEnable_iff (s : State) : s.soundEnable = true ↔ 0 < s.st.toNat := by
  rw [State.soundEnable, bne_iff_ne, Nat.pos_iff_ne_zero, Ne, Ne, ← BitVec.toNat_inj]
  rfl

/-- Settles O44: each writes one register or timer alone, and the tone follows ST (`soundEnable_iff`). -/
theorem timerMoves : Obligations.TimerMoves :=
  ⟨fun _ _ => decodeWord_of_and_mask (.moved 0), fun _ _ => decodeWord_of_and_mask (.loadd 0),
    fun _ _ => decodeWord_of_and_mask (.loads 0), fun x s =>
    ⟨⟨_, exec_moved x s, getV_setV_same s x _, keepsOtherV_setV s x _, onlyV_setV s x _⟩,
      ⟨_, exec_loadd x s, rfl, rfl, fun _ => rfl⟩,
      ⟨_, exec_loads x s, rfl, soundEnable_iff _, rfl, fun _ => rfl⟩⟩⟩

end Sys2Proof.Machine
end

section
/-! Randomness (46_random.md R170): RAND, and what the other instructions see of the random byte. -/

namespace Sys2Proof.Machine

open Sys2Proof.Config

variable {s : State}

/-- Settles O54: the random byte is an element that only RAND uses. -/
theorem onlyRandSeesTheRandomByte : Obligations.OnlyRandSeesTheRandomByte := by
  intro i s b hr
  have ha : ({ randByte := some b } : Overlay).avoids i := by
    cases i with
    | rand x nn => exact absurd rfl (hr x nn)
    | _ => simp [Overlay.avoids]
  exact exec_overlay ha

theorem exec_rand (x : Reg) (nn : Byte) (s : State) : exec (.rand x nn) s = .next (s.setV x (s.randByte &&& nn)) := rfl

/-- The next tick takes the first input that the state lists (60_exceptions.md R196). -/
theorem nextInput_of_inputs_cons {inp : TickInput} {rest : List TickInput} (h : s.inputs = inp :: rest) :
    s.nextInput = inp := by
  rw [State.nextInput, h]

/-- Settles O45: RAND writes VX alone, with the bitwise and of NN and the byte that the start of the tick sampled. -/
theorem randMasksTheDrawnByte : Obligations.RandMasksTheDrawnByte := by
  refine ⟨fun _ _ => decodeWord_of_and_mask (.rand 0 0), fun x nn s =>
    ⟨_, exec_rand x nn s, keepsOtherV_setV s x _, onlyV_setV s x _, fun b => ?_, fun inp rest h => ?_⟩⟩
  · rw [getV_setV_same, BitVec.getLsbD_and]
  · rw [beginTick_randByte, nextInput_of_inputs_cons h]

end Sys2Proof.Machine
end

section
/-! The tick's exceptional ends (60_exceptions.md R181 to R185): the report of an illegal word, the fatal fetch, the halted
core, and where an instruction is fatal. -/

namespace Sys2Proof.Machine

variable {s t : State} {i : Instr}

/-! ### Illegal words and the fatal fetch -/

/-- Settles O4: `step_of_illegal`, and pc + 2 does not wrap where the fetch is in range. -/
theorem illegalWordIsReportedAndSkipped : Obligations.IllegalWordIsReportedAndSkipped :=
  fun _ hr hc hd => ⟨_, step_of_illegal hr hc hd, entryState_pc_toNat hc, rfl, rfl⟩

/-- Settles O5: the first of the two bytes at pc that is out of range is the one at 0x1000, or at pc from there on. -/
theorem fetchOutOfRangeIsFatal : Obligations.FetchOutOfRangeIsFatal := by
  intro s hr hlt
  refine ⟨_, step_of_not_canFetch hr (Nat.not_le.2 hlt), rfl, ?_⟩
  change max s.pc.toNat 0x1000 = _
  split <;> omega

/-! ### The session status -/

theorem exec_halt (h : exec i s = .next t) : t.halt = s.halt := by
  cases i <;> exact (congrArg State.halt (exec_frame h) :)

theorem halt_of_step_next (h : step s = .next t) : s.halt = .running := by
  cases hh : s.halt with
  | running => rfl
  | halted r => cases (step_of_halted hh).symm.trans h

theorem step_halt (h : step s = .next t) : t.halt = s.halt := by
  obtain ⟨-, ⟨-, rfl⟩ | ⟨i, -, he⟩⟩ := step_next h
  · rfl
  · exact .trans (exec_halt he) rfl

theorem fatalStatus_of_running (h : s.halt = .running) : s.fatalStatus = (0, none) := by
  rw [State.fatalStatus, h]

/-- Settles O6: a halted core answers a fault, and neither the report of an illegal word nor an instruction halts. -/
theorem haltedCoreNeverRuns : Obligations.HaltedCoreNeverRuns := by
  refine ⟨fun s r => ⟨step_of_halted (halted_halt s r), rfl⟩, fun s t h => ?_⟩
  have hr := halt_of_step_next h
  have hr' := (step_halt h).trans hr
  exact ⟨hr, hr', fatalStatus_of_running hr'⟩

/-! ### Where an instruction is fatal (R182, R214) -/

theorem exec_of_mayExecute (h : s.mayExecute i) : ∃ t, exec i s = .next t := by
  cases i with
  | call nnn => exact ⟨_, execCall_of_lt nnn h⟩
  | ret => exact ⟨_, execRet_of_ne (Nat.ne_of_gt h)⟩
  | skpr x => exact ⟨_, exec_skpr_of_ok (keyOperand_of_eq (k := ⟨_, Nat.lt_succ_of_le h⟩) rfl)⟩
  | skup x => exact ⟨_, exec_skup_of_ok (keyOperand_of_eq (k := ⟨_, Nat.lt_succ_of_le h⟩) rfl)⟩
  | draw | bcd | stor | read => exact ⟨_, checkedRange_of_inRange h _⟩
  | _ => exact ⟨_, rfl⟩

theorem checkedRange_of_not_dataInRange {n : Nat} (h : ¬ s.dataInRange n) (t : State) :
    checkedRange s.i.toNat n t = .fault (.memOutOfRange (max s.i.toNat 0x1000)) :=
  (not_or.1 h).elim fun hn hle => checkedRange_of_lt hn (Nat.not_le.1 hle) t

/-- Settles O46: where the condition holds, `exec_of_mayExecute`; where it fails, the one fault of the instruction. -/
theorem instructionsFailOnlyWhereTheSpecSays : Obligations.InstructionsFailOnlyWhereTheSpecSays := by
  intro i s
  by_cases h : s.mayExecute i
  · exact .inl ⟨h, exec_of_mayExecute h⟩
  refine .inr ⟨h, ?_⟩
  cases i with
  | call nnn => exact ⟨_, execCall_of_not_lt nnn h, .inl ⟨⟨nnn, rfl⟩, rfl⟩⟩
  | ret => exact ⟨_, execRet_of_eq (Nat.eq_zero_of_not_pos h), .inr (.inl ⟨rfl, rfl⟩)⟩
  | skpr x => exact ⟨_, exec_skpr_of_error (keyOperand_of_lt (Nat.not_le.1 h)), .inr (.inr (.inl ⟨x, .inl rfl, rfl⟩))⟩
  | skup x => exact ⟨_, exec_skup_of_error (keyOperand_of_lt (Nat.not_le.1 h)), .inr (.inr (.inl ⟨x, .inr rfl, rfl⟩))⟩
  | draw x y n => exact ⟨_, checkedRange_of_not_dataInRange h _, .inr (.inr (.inr ⟨.inr ⟨x, y, n, rfl⟩, rfl⟩))⟩
  | bcd x | stor x | read x =>
    exact ⟨_, checkedRange_of_not_dataInRange h _, .inr (.inr (.inr ⟨.inl ⟨x, by simp⟩, rfl⟩))⟩
  | _ => exact absurd trivial h

end Sys2Proof.Machine
end

section
/-! What a tick does before its instruction (60_exceptions.md R190, R192): the timer phase and the key events. -/

namespace Sys2Proof.Machine

open Sys2Proof.Config

variable {s : State}

/-! ### The timer phase -/

theorem countDown_toNat_ite (due : Bool) (t : Byte) :
    (countDown due t).toNat = if due = true ∧ 0 < t.toNat then t.toNat - 1 else t.toNat := by
  rw [countDown_toNat, ite_and]
  split
  · split <;> omega
  · rfl

/-- Settles O7: `countDown` for each timer; the instruction, or the report, works on the state the timer phase left. -/
theorem timerPhaseCountsDownToZeroFirst : Obligations.TimerPhaseCountsDownToZeroFirst := by
  refine ⟨fun s due => ⟨rfl, countDown_toNat_ite due s.dt, countDown_toNat_ite due s.st, soundEnable_iff _⟩,
    fun s hr hc => ⟨rfl, rfl, ?_⟩⟩
  cases hd : decodeWord s.params.strict59 s.fetchedWord with
  | some i => exact .inl ⟨i, hd, step_of_decoded hr hc hd⟩
  | none => exact .inr ⟨_, hd, step_of_illegal hr hc hd, rfl, rfl⟩

/-! ### The key events -/

section Events

variable {key : Vector Bool 16} {es before after : List KeyEvent} {k : Fin 16}

theorem keyEvents_cons (e : KeyEvent) : keyEvents key (e :: es) = keyEvents (keyEvent key e) es := rfl

theorem keyEvents_append : keyEvents key (before ++ after) = keyEvents (keyEvents key before) after :=
  List.foldl_append

theorem keyEvents_getElem_of_no_event (h : ∀ f ∈ es, f.key ≠ k) : (keyEvents key es)[k] = key[k] := by
  induction es generalizing key with
  | nil => rfl
  | cons e es ih =>
    obtain ⟨he, hes⟩ := List.forall_mem_cons.1 h
    rw [keyEvents_cons, ih hes, keyEvent_getElem, if_neg he.symm]

theorem keyEvents_getElem_of_last_event {e : KeyEvent} (he : e.key = k) (h : ∀ f ∈ after, f.key ≠ k) :
    (keyEvents key (before ++ e :: after))[k] = e.pressed := by
  rw [keyEvents_append, keyEvents_cons, keyEvents_getElem_of_no_event h, keyEvent_getElem, if_pos he.symm]

end Events

theorem beginTick_key_of_inputs_cons {inp : TickInput} {rest : List TickInput} (h : s.inputs = inp :: rest) :
    s.beginTick.key = keyEvents s.key inp.events := by
  rw [beginTick_key, nextInput_of_inputs_cons h]

/-- Settles O8: the start of the tick applies the events of the first input in order, so the last one for a key stays. -/
theorem lastKeyEventWins : Obligations.LastKeyEventWins := by
  intro s inp rest k h
  rw [beginTick_key_of_inputs_cons h, beginTick_inputs, beginTick_randByte, nextInput_of_inputs_cons h, h]
  refine ⟨rfl, rfl, fun before after e hes he hafter => ?_, keyEvents_getElem_of_no_event⟩
  rw [hes]
  exact keyEvents_getElem_of_last_event he hafter

end Sys2Proof.Machine
end

section
/-! The construction with a program (70_reset_and_hazards.md R210, R211): its two answers, decided by the program's length. -/

namespace Sys2Proof.Machine

open Sys2Proof.Config

variable (p : Params) {program : List Byte}

theorem construct_of_le (h : program.length ≤ progMax) :
    State.construct p program = .ok ((State.resetWith p).memWriteBytes progBase program) := if_pos h

theorem construct_of_lt (h : progMax < program.length) :
    State.construct p program = .error (.programTooLarge program.length) := if_neg (Nat.not_le.2 h)

/-- PROG_BASE and PROG_MAX make up MEM_SIZE (00_scope.md R7), so an accepted program lies inside memory. -/
theorem progBase_add_length_le (h : program.length ≤ progMax) : progBase + program.length ≤ memSize :=
  Nat.add_le_add_left h progBase

/-- Settles O2: a program that fits is consecutive bytes stored inside the memory of reset, which is canonical. -/
theorem constructionLoadsOrRefusesTheProgram : Obligations.ConstructionLoadsOrRefusesTheProgram := by
  refine fun p program => ⟨fun h => ?_, fun h => ⟨_, construct_of_lt p h, rfl, rfl⟩⟩
  have hwf : (State.resetWith p).mem.wf (State.resetWith p).params = true := Memory.wf_nil
  have hfit := progBase_add_length_le h
  exact ⟨_, construct_of_le p h, memWriteBytes_frame .., memWriteBytes_wf _ _ _ hwf hfit,
    fun _ hk => memRead_memWriteBytes_getElem hwf hfit hk,
    fun _ ha => memRead_memWriteBytes_of_outside hwf hfit ha⟩

end Sys2Proof.Machine
end
